-- ==== Sys2Proof/Word.lean ====
section
/-! DEFINITION. The word types of the engine (rules R2, R11, R12). -/

namespace Sys2Proof

/-- A 16-bit word: every state, key and subkey word, every register and every bus datum (rule R2).
Addition, subtraction and exclusive or of rule R13 are `+`, `-` and `^^^` on this type. -/
abbrev Word := BitVec 16

/-- A 10-bit register address of the host bus (rule R11). -/
abbrev Addr := BitVec 10

/-- One byte of a byte-encoded key or state at the engine's boundary (rule R40). -/
abbrev Byte := BitVec 8

end Sys2Proof
end

