-- ==== Sys2Proof/Config.lean ====
section
/-! DEFINITION. What is fixed for this hardware (00_scope.md, rules R2 to R11), the platform parameter the spec
leaves open, and the free values (93_implementation_defined.md). -/

namespace Sys2Proof.Config

/-- NB, the number of branches (rule R3). -/
abbrev branches : Nat := 2

/-- NS, the number of steps (rule R4). -/
abbrev steps : Nat := 8

/-- RPS, the rounds of one step (rule R5). -/
abbrev roundsPerStep : Nat := 3

/-- NR, the rounds of the whole cipher (rule R6). -/
abbrev rounds : Nat := steps * roundsPerStep

/-- The number of subkey groups, NB·NS + 1 (rule R9). -/
abbrev subkeyGroups : Nat := branches * steps + 1

/-- TRAIL_MAX, the records of the trail buffer (rule R10). -/
abbrev trailRecords : Nat := steps * roundsPerStep + steps

/-- UNSPEC, the unspecified 16-bit value of rule R14: the n-th one drawn since power-on.  A free value: nothing
constrains it (93_implementation_defined.md, treatment "any value").  Assumption log 5. -/
opaque unspec : Nat → Word

/-- ENGINE_BASE, where the platform places the engine in the host's address space (rule R110, decision D2,
item U12: a parameter).  Nothing constrains it.  Assumption log 13. -/
opaque engineBase : Nat

end Sys2Proof.Config
end

