-- ==== Sys2Proof/Syntax.lean ====
section
/-! DEFINITION. The instructions: the eight command words of format CMD16 and the two host transactions of format
BUS (rules R53 to R55), one constructor for each row of spec/opcode_table.json; what is fetched; and what a host
program is made of (rule R60). -/

namespace Sys2Proof

/-- The OP field's named values (rule R55). -/
inductive Opcode where
  | ksched
  | encr
  | decr
  | encs
  | decs
  | lfwd
  | linv
  | trail
  deriving DecidableEq, Repr

/-- The engine's instructions.  Round numbers, step numbers and counts are numbers as rule R57 has them ("the round
or step number itself"); which values are legal is `Instr.wellFormed`. -/
inductive Instr where
  /-- KSCHED: key schedule initialization (rule R81). -/
  | ksched
  /-- ENCR r1, r2: encrypt rounds r1..r2 (rule R84). -/
  | encr (r1 r2 : Nat)
  /-- DECR r1, r2: decrypt rounds r1..r2 (rule R85). -/
  | decr (r1 r2 : Nat)
  /-- ENCS s1, s2: encrypt steps s1..s2 (rule R89). -/
  | encs (s1 s2 : Nat)
  /-- DECS s1, s2: decrypt steps s1..s2 (rule R90). -/
  | decs (s1 s2 : Nat)
  /-- LFWD: the standalone forward linear layer (rule R93). -/
  | lfwd
  /-- LINV: the standalone inverse linear layer (rule R94). -/
  | linv
  /-- TRAIL N: trail propagation over N steps (rule R95). -/
  | trail (n : Nat)
  /-- REGWR a, v: the host writes a register (rule R62). -/
  | regwr (a : Addr) (v : Word)
  /-- REGRD a: the host reads a register (rule R63). -/
  | regrd (a : Addr)
  deriving DecidableEq, Repr

/-- A host bus transaction, format BUS: a kind, an address and, for a write, a datum.  "At this level nothing is
encoded beyond the pair (addr, data)" (rule R54). -/
inductive BusOp where
  | write (a : Addr) (v : Word)
  | read (a : Addr)
  deriving DecidableEq, Repr

/-- What an agent hands to the decoder: the engine its pending command word (format CMD16), the host its next
transaction (format BUS). -/
inductive Fetched where
  | command (w : Word)
  | bus (t : BusOp)
  deriving DecidableEq, Repr

/-- One operation of a host program (rule R60): a bus transaction, or `poll ADDR, MASK, VALUE`, "the only host-side
control flow the spec needs". -/
inductive HostOp where
  | bus (t : BusOp)
  | poll (a : Addr) (mask value : Word)
  deriving DecidableEq, Repr

end Sys2Proof
end

