-- ==== Sys2Proof/WellFormed.lean ====
section
/-! DEFINITION. Which instructions are well formed: the legal values of the operands (rule R57). -/

namespace Sys2Proof

/-- The legal operands of rule R57: 1 ≤ r1 ≤ r2 ≤ 24 for a round range, 1 ≤ s1 ≤ s2 ≤ 8 for a step range, 1 ≤ N ≤ 8
for a trail.  The other commands have no operand, and a bus transaction may name any address and any datum
(rules R39, R54). -/
def Instr.wellFormed : Instr → Bool
  | .ksched => true
  | .encr r1 r2 => decide (1 ≤ r1 ∧ r1 ≤ r2 ∧ r2 ≤ 24)
  | .decr r1 r2 => decide (1 ≤ r1 ∧ r1 ≤ r2 ∧ r2 ≤ 24)
  | .encs s1 s2 => decide (1 ≤ s1 ∧ s1 ≤ s2 ∧ s2 ≤ 8)
  | .decs s1 s2 => decide (1 ≤ s1 ∧ s1 ≤ s2 ∧ s2 ≤ 8)
  | .lfwd => true
  | .linv => true
  | .trail n => decide (1 ≤ n ∧ n ≤ 8)
  | .regwr _ _ => true
  | .regrd _ => true

/-- The commands that use the expanded key, which rule R99 rejects with ENOKEY while KSV = 0. -/
def Instr.usesKey : Instr → Bool
  | .ksched => false
  | .encr _ _ => true
  | .decr _ _ => true
  | .encs _ _ => true
  | .decs _ _ => true
  | .lfwd => false
  | .linv => false
  | .trail _ => true
  | .regwr _ _ => false
  | .regrd _ => false

/-- The instructions that are command words (format CMD16), as against the two bus transactions. -/
def Instr.isCommand : Instr → Bool
  | .ksched => true
  | .encr _ _ => true
  | .decr _ _ => true
  | .encs _ _ => true
  | .decs _ _ => true
  | .lfwd => true
  | .linv => true
  | .trail _ => true
  | .regwr _ _ => false
  | .regrd _ => false

end Sys2Proof
end

