-- ==== Sys2Proof/Decode.lean ====
section
/-! DEFINITION. Decoding and encoding (30_encoding.md, rules R53 to R58): the fields of a command word, the opcode
table, the decoder (total on every 16-bit word and every bus transaction), and the encoder. -/

namespace Sys2Proof

/-- OP, bits 15:12 of a command word (rule R53). -/
def opField (w : Word) : BitVec 4 := w.extractLsb 15 12

/-- RSV, bits 11:10 of a command word (rule R53). -/
def rsvField (w : Word) : BitVec 2 := w.extractLsb 11 10

/-- FROM, bits 9:5 of a command word (rule R53). -/
def fromField (w : Word) : BitVec 5 := w.extractLsb 9 5

/-- TO, bits 4:0 of a command word (rule R53). -/
def toField (w : Word) : BitVec 5 := w.extractLsb 4 0

/-- One row of the opcode map of rule R55. -/
structure OpcodeRow where
  op : Opcode
  pattern : Word
  mask : Word
  deriving DecidableEq, Repr

/-- The opcode map of rule R55, its match and mask columns. -/
def opcodeTable : List OpcodeRow :=
  [ ⟨.ksched, 0x1000, 0xFFFF⟩,
    ⟨.encr, 0x2000, 0xFC00⟩,
    ⟨.decr, 0x3000, 0xFC00⟩,
    ⟨.encs, 0x4000, 0xFC00⟩,
    ⟨.decs, 0x5000, 0xFC00⟩,
    ⟨.lfwd, 0x6000, 0xFFFF⟩,
    ⟨.linv, 0x7000, 0xFFFF⟩,
    ⟨.trail, 0x8000, 0xFFE0⟩ ]

/-- "A word w selects a row when (w AND mask) = match" (rule R55). -/
def OpcodeRow.selects (row : OpcodeRow) (w : Word) : Bool := w &&& row.mask == row.pattern

/-- The instruction an operation makes of its two numbers, "unsigned, with no scaling or offset" (rule R57).  A range
outside the legal values still makes an instruction: it is the acceptance check that rejects it (rule R99). -/
def Opcode.instr (op : Opcode) (lo hi : Nat) : Instr :=
  match op with
  | .ksched => .ksched
  | .encr => .encr lo hi
  | .decr => .decr lo hi
  | .encs => .encs lo hi
  | .decs => .decs lo hi
  | .lfwd => .lfwd
  | .linv => .linv
  | .trail => .trail hi

/-- The command a 16-bit word encodes; none for a word that selects no row (rules R55 and R56: an illegal OP, or a
nonzero reserved or must-be-zero field). -/
def decodeCommand (w : Word) : Option Instr :=
  (opcodeTable.find? (fun row => row.selects w)).map
    (fun row => row.op.instr (fromField w).toNat (toField w).toNat)

/-- The instruction of a bus transaction (rule R54). -/
def decodeBus : BusOp → Instr
  | .write a v => .regwr a v
  | .read a => .regrd a

/-- The decoder. -/
def decode : Fetched → Option Instr
  | .command w => decodeCommand w
  | .bus t => some (decodeBus t)

/-- The OP value of an operation (rule R55). -/
def Opcode.code : Opcode → BitVec 4
  | .ksched => 0x1
  | .encr => 0x2
  | .decr => 0x3
  | .encs => 0x4
  | .decs => 0x5
  | .lfwd => 0x6
  | .linv => 0x7
  | .trail => 0x8

/-- The command word of rule R60: (OP << 12) | (FROM << 5) | TO. -/
def commandWord (op : Opcode) (lo hi : Nat) : Word :=
  op.code.setWidth 16 <<< 12 ||| BitVec.ofNat 16 lo <<< 5 ||| BitVec.ofNat 16 hi

/-- The encoder: the word of a command, the transaction of a bus instruction. -/
def encode : Instr → Fetched
  | .ksched => .command (commandWord .ksched 0 0)
  | .encr r1 r2 => .command (commandWord .encr r1 r2)
  | .decr r1 r2 => .command (commandWord .decr r1 r2)
  | .encs s1 s2 => .command (commandWord .encs s1 s2)
  | .decs s1 s2 => .command (commandWord .decs s1 s2)
  | .lfwd => .command (commandWord .lfwd 0 0)
  | .linv => .command (commandWord .linv 0 0)
  | .trail n => .command (commandWord .trail 0 n)
  | .regwr a v => .bus (.write a v)
  | .regrd a => .bus (.read a)

/-- The 16-bit word of which the opcode table gives the low `nbits` bits; the bits above them are zero. -/
def tableWord (nbits w : Nat) : Word := BitVec.ofNat 16 (w % 2 ^ nbits)

/-- The instruction the decoder reads from a word of spec/opcode_table.json.  Every encoded instruction is exactly 16
bits (rule R58); the two BUS rows have no bits of their own (rule R54), so no word decodes to them. -/
def decodeTableWord (nbits w : Nat) : Option Instr :=
  if nbits ≤ 16 then decode (.command (tableWord nbits w)) else none

end Sys2Proof
end

