-- ==== Sys2Proof/Machine/State.lean ====
section
/-! DEFINITION. The state of the engine and its host, the ways a step can stop, and the state after reset
(10_state.md, rules R15 to R36; 70_reset_and_hazards.md, rule R115). -/

namespace Sys2Proof.Machine

/-- A 4-word cipher state, X[0..3] or Y[0..3] (rules R3, R16, R17): branch b is the pair (w(2b), w(2b+1)). -/
structure Block where
  w0 : Word
  w1 : Word
  w2 : Word
  w3 : Word
  deriving DecidableEq, Repr

/-- An 8-word key register, KEY[0..7] or KREG[0..7] (rules R15, R20). -/
structure KeyWords where
  k0 : Word
  k1 : Word
  k2 : Word
  k3 : Word
  k4 : Word
  k5 : Word
  k6 : Word
  k7 : Word
  deriving DecidableEq, Repr

/-- A subkey group SK[g][0..5] (rule R9). -/
structure SubkeyGroup where
  g0 : Word
  g1 : Word
  g2 : Word
  g3 : Word
  g4 : Word
  g5 : Word
  deriving DecidableEq, Repr

/-- A trail record TRAIL[n][0..7] (rule R21): KIND, STEP, ROUND, D0 to D3 and the reserved word 7. -/
structure TrailRecord where
  kind : Word
  step : Word
  round : Word
  d0 : Word
  d1 : Word
  d2 : Word
  d3 : Word
  reserved : Word
  deriving DecidableEq, Repr

/-- What STATUS.ECODE can hold (rules R29, R99): no error, or one of the four error codes. -/
inductive ECode where
  | none
  | illop
  | rsv
  | range
  | nokey
  deriving DecidableEq, Repr

/-- The agents that take steps (10_state.md, rule R35; rule R114): the host, the engine and the reset input. -/
inductive Agent where
  | host
  | engine
  | reset
  deriving DecidableEq, Repr

/-- The machine's state: the engine's registers and tables, and what stands outside it (the host's remaining program,
the order in which the agents move, the value the bus returned last). -/
structure State where
  /-- KEY[0..7], the master-key registers (rule R15). -/
  key : KeyWords
  /-- X[0..3], the state registers (rule R16). -/
  x : Block
  /-- Y[0..3], the partner-state registers (rule R17). -/
  y : Block
  /-- SK[0..16][0..5], the expanded-key table (rule R19). -/
  sk : Vector SubkeyGroup Config.subkeyGroups
  /-- KREG[0..7], the working key register (rule R20). -/
  kreg : KeyWords
  /-- TRAIL[0..31][0..7], the trail buffer (rule R21). -/
  trail : Vector TrailRecord Config.trailRecords
  /-- TRAIL_COUNT (rule R32). -/
  trailCount : Word
  /-- CMD, the last command word stored (rule R22). -/
  cmd : Word
  /-- PENDING, the in-flight command word (rule R35).  STATUS.BUSY is read from it: `State.busy`. -/
  pending : Option Word
  /-- STATUS.DONE (rule R25). -/
  done : Bool
  /-- STATUS.ERR (rule R26). -/
  err : Bool
  /-- STATUS.KSV (rule R27). -/
  ksv : Bool
  /-- STATUS.BWE (rule R28). -/
  bwe : Bool
  /-- STATUS.ECODE (rule R29). -/
  ecode : ECode
  /-- CTRL.FINAL_L (rule R31); the register's other bits read 0. -/
  finalL : Bool
  /-- The model's own: whether a KSCHED has completed since reset; until then SK reads UNSPEC (rule R63, item U3). -/
  skWritten : Bool
  /-- The 16-bit value the last REGRD returned to the host (rule R63). -/
  rdata : Word
  /-- The model's own: how many UNSPEC values have been drawn (assumption log 5). -/
  unspecDrawn : Nat
  /-- What is left of the host's program, next operation first (rules R18, R60). -/
  program : List HostOp
  /-- Which agent takes each of the next steps, next first (rules R46, R102, R114); when the list has run out, see
  `State.mover`. -/
  schedule : List Agent
  deriving DecidableEq, Repr

/-- Why the machine stops.  The engine itself has no trap, abort or bus error (rules R103, R107, decision D16). -/
inductive Fault where
  /-- Raised by `step` alone, on the engine's turn, when PENDING holds a word that encodes no command.  Only an accepted
  command word is ever in PENDING (rule R35), so no run from reset reaches this.  Safe. -/
  | pendingNotACommand (w : Word)
  deriving DecidableEq, Repr

/-- Why the machine gives an instruction no meaning. -/
inductive Refusal where
  /-- Raised by an arm of `exec` whose instruction has no meaning yet; no arm raises it.  Safe. -/
  | notModelled (mnemonic : String)
  deriving DecidableEq, Repr

/-- The block of four zero words. -/
def Block.zero : Block := ⟨0, 0, 0, 0⟩

/-- Eight zero words. -/
def KeyWords.zero : KeyWords := ⟨0, 0, 0, 0, 0, 0, 0, 0⟩

/-- A group of six zero words. -/
def SubkeyGroup.zero : SubkeyGroup := ⟨0, 0, 0, 0, 0, 0⟩

/-- A record of eight zero words. -/
def TrailRecord.zero : TrailRecord := ⟨0, 0, 0, 0, 0, 0, 0, 0⟩

/-- STATUS.BUSY: "BUSY = 1 exactly when PENDING is not none" (rule R35). -/
def State.busy (s : State) : Bool := s.pending.isSome

/-- The state after reset, with nothing outside the engine placed (rule R115).  SK, KREG and TRAIL reset to UNSPEC: the
zeros stored here are a DESIGN CHOICE (assumption log 7) that no host read returns, since SK reads UNSPEC until a KSCHED
completes, TRAIL reads UNSPEC at and above TRAIL_COUNT = 0, and KREG has no address. -/
def State.reset : State where
  key := KeyWords.zero
  x := Block.zero
  y := Block.zero
  sk := Vector.replicate Config.subkeyGroups SubkeyGroup.zero
  kreg := KeyWords.zero
  trail := Vector.replicate Config.trailRecords TrailRecord.zero
  trailCount := 0x0000
  cmd := 0x0000
  pending := none
  done := false
  err := false
  ksv := false
  bwe := false
  ecode := .none
  finalL := false
  skWritten := false
  rdata := 0x0000
  unspecDrawn := 0
  program := []
  schedule := []

end Sys2Proof.Machine
end

