-- ==== Sys2Proof/Machine/Operands.lean ====
section
/-! DEFINITION. Operands: the words and branches of a block, a key, a group and a record by index; the address map
(20_memory.md, rules R38 and R39); byte-encoded and wider views (rules R40, R41); ENGINE_BASE (rule R110). -/

namespace Sys2Proof.Machine

/-- A branch number (rule R3). -/
inductive Branch where
  | b0
  | b1
  deriving DecidableEq, Repr

/-- The branch's number b. -/
def Branch.number : Branch → Nat
  | .b0 => 0
  | .b1 => 1

/-- The branches in the order of `for b = 0 to 1`. -/
def Branch.all : List Branch := [.b0, .b1]

/-- The other branch. -/
def Branch.other : Branch → Branch
  | .b0 => .b1
  | .b1 => .b0

/-- (X[2b], X[2b+1]): branch b's left and right word (rule R3). -/
def Block.branch (x : Block) : Branch → Word × Word
  | .b0 => (x.w0, x.w1)
  | .b1 => (x.w2, x.w3)

/-- (X[2b], X[2b+1]) <- p. -/
def Block.setBranch (x : Block) (b : Branch) (p : Word × Word) : Block :=
  match b with
  | .b0 => { x with w0 := p.1, w1 := p.2 }
  | .b1 => { x with w2 := p.1, w3 := p.2 }

/-- X[i]. -/
def Block.get (x : Block) : Fin 4 → Word
  | 0 => x.w0
  | 1 => x.w1
  | 2 => x.w2
  | 3 => x.w3

/-- X[i] <- v. -/
def Block.set (x : Block) (i : Fin 4) (v : Word) : Block :=
  match i with
  | 0 => { x with w0 := v }
  | 1 => { x with w1 := v }
  | 2 => { x with w2 := v }
  | 3 => { x with w3 := v }

/-- The wordwise exclusive or of two blocks, the XOR difference of two states. -/
def Block.xor (x y : Block) : Block :=
  ⟨x.w0 ^^^ y.w0, x.w1 ^^^ y.w1, x.w2 ^^^ y.w2, x.w3 ^^^ y.w3⟩

/-- KEY[i]. -/
def KeyWords.get (k : KeyWords) : Fin 8 → Word
  | 0 => k.k0
  | 1 => k.k1
  | 2 => k.k2
  | 3 => k.k3
  | 4 => k.k4
  | 5 => k.k5
  | 6 => k.k6
  | 7 => k.k7

/-- KEY[i] <- v. -/
def KeyWords.set (k : KeyWords) (i : Fin 8) (v : Word) : KeyWords :=
  match i with
  | 0 => { k with k0 := v }
  | 1 => { k with k1 := v }
  | 2 => { k with k2 := v }
  | 3 => { k with k3 := v }
  | 4 => { k with k4 := v }
  | 5 => { k with k5 := v }
  | 6 => { k with k6 := v }
  | 7 => { k with k7 := v }

/-- SK[g][i], for a group. -/
def SubkeyGroup.get (g : SubkeyGroup) : Fin 6 → Word
  | 0 => g.g0
  | 1 => g.g1
  | 2 => g.g2
  | 3 => g.g3
  | 4 => g.g4
  | 5 => g.g5

/-- TRAIL[n][w], for a record (rule R21). -/
def TrailRecord.get (r : TrailRecord) : Fin 8 → Word
  | 0 => r.kind
  | 1 => r.step
  | 2 => r.round
  | 3 => r.d0
  | 4 => r.d1
  | 5 => r.d2
  | 6 => r.d3
  | 7 => r.reserved

/-- The XOR difference a record holds in its words 3 to 6. -/
def TrailRecord.difference (r : TrailRecord) : Block := ⟨r.d0, r.d1, r.d2, r.d3⟩

/-- What an address names (rule R38). -/
inductive Register where
  | key (i : Fin 8)
  | x (i : Fin 4)
  | y (i : Fin 4)
  | cmd
  | status
  | ctrl
  | trailCount
  | config
  | sk (g : Fin 17) (i : Fin 6)
  | trail (n : Fin 32) (w : Fin 8)
  | reserved
  deriving DecidableEq, Repr

/-- The address map (rule R38).  The SK window holds SK[g][i] at 0x100 + 6·g + i and the trail window TRAIL[n][w] at
0x200 + 8·n + w; every address not listed is reserved (rule R39). -/
def registerAt (a : Addr) : Register :=
  if h : a.toNat < 0x008 then .key ⟨a.toNat, h⟩
  else if h : a.toNat < 0x00C then .x ⟨a.toNat - 0x008, by omega⟩
  else if h : a.toNat < 0x010 then .y ⟨a.toNat - 0x00C, by omega⟩
  else if a.toNat = 0x010 then .cmd
  else if a.toNat = 0x011 then .status
  else if a.toNat = 0x012 then .ctrl
  else if a.toNat = 0x013 then .trailCount
  else if a.toNat = 0x014 then .config
  else if h : 0x100 ≤ a.toNat ∧ a.toNat ≤ 0x165 then
    .sk ⟨(a.toNat - 0x100) / 6, by omega⟩ ⟨(a.toNat - 0x100) % 6, by omega⟩
  else if h : 0x200 ≤ a.toNat ∧ a.toNat ≤ 0x2FF then
    .trail ⟨(a.toNat - 0x200) / 8, by omega⟩ ⟨(a.toNat - 0x200) % 8, by omega⟩
  else .reserved

/-- The address of KEY[i]. -/
def keyAddr (i : Fin 8) : Addr := BitVec.ofNat 10 i.val

/-- The address of X[i]. -/
def xAddr (i : Fin 4) : Addr := BitVec.ofNat 10 (0x008 + i.val)

/-- The address of Y[i]. -/
def yAddr (i : Fin 4) : Addr := BitVec.ofNat 10 (0x00C + i.val)

/-- The address of CMD. -/
def cmdAddr : Addr := 0x010

/-- The address of STATUS. -/
def statusAddr : Addr := 0x011

/-- The address of CTRL. -/
def ctrlAddr : Addr := 0x012

/-- The address of TRAIL_COUNT. -/
def trailCountAddr : Addr := 0x013

/-- The address of CONFIG. -/
def configAddr : Addr := 0x014

/-- SK(g,i), the address of SK[g][i] (rules R38, R60). -/
def skAddr (g : Fin 17) (i : Fin 6) : Addr := BitVec.ofNat 10 (0x100 + 6 * g.val + i.val)

/-- TR(n,w), the address of TRAIL[n][w] (rules R38, R60). -/
def trailAddr (n : Fin 32) (w : Fin 8) : Addr := BitVec.ofNat 10 (0x200 + 8 * n.val + w.val)

/-- Two bytes as a word, the first the more significant (rule R40). -/
def wordOfBytes (hi lo : Byte) : Word := hi ++ lo

/-- KEY of a 16-byte master key: KEY[i] = k[2i] ∥ k[2i+1] (rule R40). -/
def keyOfBytes (k : Vector Byte 16) : KeyWords :=
  ⟨wordOfBytes k[0] k[1], wordOfBytes k[2] k[3], wordOfBytes k[4] k[5], wordOfBytes k[6] k[7],
   wordOfBytes k[8] k[9], wordOfBytes k[10] k[11], wordOfBytes k[12] k[13], wordOfBytes k[14] k[15]⟩

/-- X of an 8-byte state: X[i] = p[2i] ∥ p[2i+1] (rule R40). -/
def blockOfBytes (p : Vector Byte 8) : Block :=
  ⟨wordOfBytes p[0] p[1], wordOfBytes p[2] p[3], wordOfBytes p[4] p[5], wordOfBytes p[6] p[7]⟩

/-- The more significant byte of a word, v[15:8]. -/
def highByte (v : Word) : Byte := v.extractLsb 15 8

/-- The less significant byte of a word, v[7:0]. -/
def lowByte (v : Word) : Byte := v.extractLsb 7 0

/-- The 8-bit view of a state: byte 2i is X[i][15:8] and byte 2i+1 is X[i][7:0] (rule R41). -/
def Block.bytes (x : Block) : Vector Byte 8 :=
  #v[highByte x.w0, lowByte x.w0, highByte x.w1, lowByte x.w1,
     highByte x.w2, lowByte x.w2, highByte x.w3, lowByte x.w3]

/-- The byte encoding of a key (rule R40 read the other way). -/
def KeyWords.bytes (k : KeyWords) : Vector Byte 16 :=
  #v[highByte k.k0, lowByte k.k0, highByte k.k1, lowByte k.k1,
     highByte k.k2, lowByte k.k2, highByte k.k3, lowByte k.k3,
     highByte k.k4, lowByte k.k4, highByte k.k5, lowByte k.k5,
     highByte k.k6, lowByte k.k6, highByte k.k7, lowByte k.k7]

/-- The 32-bit view of branch b, X[2b] ∥ X[2b+1] (rule R41). -/
def Block.branch32 (x : Block) (b : Branch) : BitVec 32 := (x.branch b).1 ++ (x.branch b).2

/-- The 64-bit view of the state, X[0] ∥ X[1] ∥ X[2] ∥ X[3], X[0] in bits 63:48 (rule R41). -/
def Block.bits (x : Block) : BitVec 64 := x.w0 ++ x.w1 ++ x.w2 ++ x.w3

/-- The 128-bit view of the key, KEY[0] ∥ … ∥ KEY[7] (rule R41). -/
def KeyWords.bits (k : KeyWords) : BitVec 128 :=
  k.k0 ++ k.k1 ++ k.k2 ++ k.k3 ++ k.k4 ++ k.k5 ++ k.k6 ++ k.k7

/-- The engine register that a platform address reaches, if any: the engine's 1024 registers stand from ENGINE_BASE on
(rules R37, R110).  That the platform counts in registers is a DESIGN CHOICE (assumption log 13). -/
def engineAddr (p : Nat) : Option Addr :=
  if Config.engineBase ≤ p ∧ p < Config.engineBase + 0x400 then
    some (BitVec.ofNat 10 (p - Config.engineBase))
  else none

end Sys2Proof.Machine
end

