-- ==== Sys2Proof/Machine/Flags.lean ====
section
/-! DEFINITION. The control and status words the host reads and writes: STATUS, CTRL and CONFIG (rules R23 to R34).
No command computes a flag from its data (rule R34), so these are all the flags there are. -/

namespace Sys2Proof.Machine

/-- The ECODE field's value (rules R29, R99). -/
def ECode.bits : ECode → BitVec 4
  | .none => 0
  | .illop => 1
  | .rsv => 2
  | .range => 3
  | .nokey => 4

/-- STATUS as a read returns it (rules R23, R63): 0x0 ∥ ECODE ∥ 0b000 ∥ BWE ∥ KSV ∥ ERR ∥ DONE ∥ BUSY. -/
def State.statusWord (s : State) : Word :=
  0#4 ++ s.ecode.bits ++ 0#3 ++ BitVec.ofBool s.bwe ++ BitVec.ofBool s.ksv ++ BitVec.ofBool s.err
    ++ BitVec.ofBool s.done ++ BitVec.ofBool s.busy

/-- A host write of v to STATUS: "if v[4] = 1, it clears BWE" and nothing else (rule R30). -/
def State.writeStatus (s : State) (v : Word) : State :=
  if v.getLsbD 4 then { s with bwe := false } else s

/-- CTRL as a read returns it: zext_16(FINAL_L) (rules R31, R63). -/
def State.ctrlWord (s : State) : Word := 0#15 ++ BitVec.ofBool s.finalL

/-- A host write of v to CTRL: FINAL_L <- v[0], bits 15:1 ignored (rules R31, R62). -/
def State.writeCtrl (s : State) (v : Word) : State := { s with finalL := v.getLsbD 0 }

/-- CONFIG, the read-only constant NS ∥ NB ∥ RPS = 0x0823 (rule R33). -/
def configWord : Word :=
  BitVec.ofNat 8 Config.steps ++ BitVec.ofNat 4 Config.branches ++ BitVec.ofNat 4 Config.roundsPerStep

end Sys2Proof.Machine
end

