-- ==== Sys2Proof/Machine/Primitives.lean ====
section
/-! DEFINITION. The datapath functions every command uses (41_primitives.md, rules R66 to R79): rotations, the round
transform, the linear layer, subkey selection, the round functions and the terminal whitening.  All are total. -/

namespace Sys2Proof.Machine

/-- Circular rotation left over 16 bits (rule R13). -/
def rotl (v : Word) (n : Nat) : Word :=
  if n = 0 then v else (v <<< n) ||| (v >>> (16 - n))

/-- Circular rotation right over 16 bits (rule R13). -/
def rotr (v : Word) (n : Nat) : Word := rotl v ((16 - n) % 16)

/-- A(l, r), the round transform of a branch (rule R67). -/
def roundA (p : Word × Word) : Word × Word :=
  let l := rotr p.1 7 + p.2
  let r := rotl p.2 2 ^^^ l
  (l, r)

/-- A_inverse(l, r) (rule R68). -/
def roundAInv (p : Word × Word) : Word × Word :=
  let r := rotr (p.2 ^^^ p.1) 2
  let l := rotl (p.1 - r) 7
  (l, r)

/-- MIX(X), the XOR mixing of the linear layer (rule R70). -/
def mix (x : Block) : Block :=
  let t := rotl (x.w0 ^^^ x.w1) 8
  { x with w2 := x.w2 ^^^ x.w0 ^^^ t, w3 := x.w3 ^^^ x.w1 ^^^ t }

/-- SWAP(X), the branch permutation (rule R71). -/
def swap (x : Block) : Block := ⟨x.w2, x.w3, x.w0, x.w1⟩

/-- L(X) = SWAP(MIX(X)) (rule R72). -/
def layer (x : Block) : Block := swap (mix x)

/-- L_inverse(X) = MIX(SWAP(X)) (rule R73). -/
def layerInv (x : Block) : Block := mix (swap x)

/-- step(r), the step of global round r (rule R7). -/
def stepOf (r : Nat) : Nat := (r - 1) / 3 + 1

/-- pos(r), the index of global round r inside its step (rule R7). -/
def posOf (r : Nat) : Fin 3 := ⟨(r - 1) % 3, Nat.mod_lt _ (by decide)⟩

/-- The number of the subkey group that serves branch b in step s (rules R9, R83): 2·(s − 1) + b, for s in 1..8. -/
def groupOf (s : Nat) (b : Branch) : Fin 17 := Fin.ofNat 17 (2 * (s - 1) + b.number)

/-- KP(b, r), the subkey pair of branch b in global round r (rule R75). -/
def subkeyPair (sk : Vector SubkeyGroup 17) (b : Branch) (r : Nat) : Word × Word :=
  let group := sk[groupOf (stepOf r) b]
  (group.get ⟨2 * (posOf r).val, by omega⟩, group.get ⟨2 * (posOf r).val + 1, by omega⟩)

/-- Exclusive or of two pairs of words. -/
def xorPair (p q : Word × Word) : Word × Word := (p.1 ^^^ q.1, p.2 ^^^ q.2)

/-- ER(X, b, r), the encryption round of branch b in global round r (rule R76). -/
def encRound (sk : Vector SubkeyGroup 17) (b : Branch) (x : Block) (r : Nat) : Block :=
  x.setBranch b (roundA (xorPair (x.branch b) (subkeyPair sk b r)))

/-- DR(X, b, r), the decryption round of branch b in global round r (rule R77). -/
def decRound (sk : Vector SubkeyGroup 17) (b : Branch) (x : Block) (r : Nat) : Block :=
  x.setBranch b (xorPair (roundAInv (x.branch b)) (subkeyPair sk b r))

/-- W(X), the terminal whitening: X[i] <- X[i] ⊕ SK[16][i] (rule R78). -/
def whiten (sk : Vector SubkeyGroup 17) (x : Block) : Block :=
  let g := sk[16]
  ⟨x.w0 ^^^ g.g0, x.w1 ^^^ g.g1, x.w2 ^^^ g.g2, x.w3 ^^^ g.g3⟩

/-- `for i = a to b`: the numbers a, a+1, …, b, none when a > b (rule R14). -/
def countUp (a b : Nat) : List Nat := List.range' a (b + 1 - a)

/-- `for i = b downto a`: the numbers b, b−1, …, a, none when a > b (rule R14). -/
def countDown (b a : Nat) : List Nat := (countUp a b).reverse

/-- The global rounds of step s, ascending: 3s−2, 3s−1, 3s (rule R7). -/
def roundsOfStep (s : Nat) : List Nat := countUp (3 * s - 2) (3 * s)

/-- LAFTER(s): whether L follows step s, "(s ≠ 8) or (FINAL_L = 1)" (44_step_commands.md). -/
def layerAfter (finalL : Bool) (s : Nat) : Bool := s != 8 || finalL

end Sys2Proof.Machine
end

