-- ==== Sys2Proof/Machine/Ops.lean ====
section
/-! DEFINITION. The shared operations: the acceptance check, rejection and submission of a command word
(60_exceptions.md, rules R98 to R101), the completion of a command (rule R35), write sets (rule R64), the two bus
transactions on registers (rules R62 and R63) and reset (rule R114).  Rejection is this engine's one exception: it
saves nothing, changes no mode and goes to no handler (rule R103), and there is no return from it (rule R104). -/

namespace Sys2Proof.Machine

/-- The legal round ranges: 1 ≤ FROM ≤ TO ≤ 24 (rules R57, R99). -/
def legalRounds (r1 r2 : Nat) : Bool := decide (1 ≤ r1 ∧ r1 ≤ r2 ∧ r2 ≤ 24)

/-- The legal step ranges: 1 ≤ FROM ≤ TO ≤ 8 (rules R57, R99). -/
def legalSteps (s1 s2 : Nat) : Bool := decide (1 ≤ s1 ∧ s1 ≤ s2 ∧ s2 ≤ 8)

/-- The legal step counts of TRAIL: 1 ≤ TO ≤ 8 (rules R57, R99). -/
def legalCount (n : Nat) : Bool := decide (1 ≤ n ∧ n ≤ 8)

/-- The operation an OP field selects; none for an illegal one, 0x0 and 0x9..0xF (rules R55, R56). -/
def operationOf (op : BitVec 4) : Option Opcode :=
  match op with
  | 0x1 => some .ksched
  | 0x2 => some .encr
  | 0x3 => some .decr
  | 0x4 => some .encs
  | 0x5 => some .decs
  | 0x6 => some .lfwd
  | 0x7 => some .linv
  | 0x8 => some .trail
  | _ => none

/-- The must-be-zero test of rule R99's ERSV row: v[9:0] for KSCHED, LFWD and LINV, v[9:5] for TRAIL. -/
def operandBitsReserved (op : Opcode) (v : Word) : Bool :=
  match op with
  | .ksched | .lfwd | .linv => fromField v != 0 || toField v != 0
  | .trail => fromField v != 0
  | .encr | .decr | .encs | .decs => false

/-- The range test of rule R99's ERANGE row. -/
def operandsInRange (op : Opcode) (v : Word) : Bool :=
  match op with
  | .encr | .decr => legalRounds (fromField v).toNat (toField v).toNat
  | .encs | .decs => legalSteps (fromField v).toNat (toField v).toNat
  | .trail => legalCount (toField v).toNat
  | .ksched | .lfwd | .linv => true

/-- The operations of rule R99's ENOKEY row. -/
def needsSchedule : Opcode → Bool
  | .encr | .decr | .encs | .decs | .trail => true
  | .ksched | .lfwd | .linv => false

/-- Check(v) (rule R99): the four causes in the order of their priority, and `none` when none applies. -/
def check (v : Word) (ksv : Bool) : ECode :=
  match operationOf (opField v) with
  | none => .illop
  | some op =>
    if rsvField v != 0 || operandBitsReserved op v then .rsv
    else if !operandsInRange op v then .range
    else if !ksv && needsSchedule op then .nokey
    else .none

/-- Reject(e) (rule R100): ERR <- 1, ECODE <- e, DONE <- 0; BUSY is 0 and PENDING is none. -/
def State.reject (s : State) (e : ECode) : State :=
  { s with err := true, ecode := e, done := false, pending := none }

/-- The acceptance half of Submit(v) (rule R98): the flags cleared, KSV too for a KSCHED, and PENDING <- v. -/
def State.accept (s : State) (v : Word) : State :=
  { s with
    err := false
    ecode := .none
    done := false
    ksv := if opField v = 0x1 then false else s.ksv
    pending := some v }

/-- Submit(v) (rule R98), CMD <- v already done. -/
def State.submit (s : State) (v : Word) : State :=
  match check v s.ksv with
  | .none => s.accept v
  | e => s.reject e

/-- X <- x (rule R16). -/
def State.setX (s : State) (x : Block) : State := { s with x := x }

/-- Y <- y (rule R17). -/
def State.setY (s : State) (y : Block) : State := { s with y := y }

/-- The end of the engine's step (rule R35): BUSY <- 0, DONE <- 1, PENDING <- none. -/
def State.complete (s : State) : State := { s with pending := none, done := true }

/-- The engine's single step on a command (rule R35): its whole effect as one update, then completion.  A command that
fails the range test or needs a schedule that is not valid has no effect of its own but its rejection (rules R99, R100).
Every command in PENDING has passed both tests at acceptance and nothing can change their outcome while it is there, so
on the engine's turn they pass again; see assumption log 2. -/
def runCommand (legal needsKey : Bool) (s : State) (effect : State → State) : State :=
  if !legal then s.reject .range
  else if needsKey && !s.ksv then s.reject .nokey
  else (effect s).complete

/-- The elements a command may write (rule R64); KSV, BUSY and DONE are read through STATUS, which is always exact. -/
inductive Element where
  | x
  | y
  | sk
  | kreg
  | trail
  | trailCount
  deriving DecidableEq, Repr

/-- Write sets of the commands (rule R64). -/
def writeSet : Instr → List Element
  | .ksched => [.sk, .kreg]
  | .encr _ _ => [.x]
  | .decr _ _ => [.x]
  | .encs _ _ => [.x]
  | .decs _ _ => [.x]
  | .lfwd => [.x]
  | .linv => [.x]
  | .trail _ => [.x, .y, .trail, .trailCount]
  | .regwr _ _ => []
  | .regrd _ => []

/-- W of rule R63: "the set of elements the pending command writes, or the empty set when BUSY = 0". -/
def State.pendingWrites (s : State) : List Element :=
  match s.pending with
  | none => []
  | some w =>
    match decodeCommand w with
    | some i => writeSet i
    | none => []

/-- What a register read returns: a value the rules give, or UNSPEC. -/
inductive ReadValue where
  | exact (v : Word)
  | unspec
  deriving DecidableEq, Repr

/-- UNSPEC when the condition holds, else the value. -/
def unspecIf (c : Bool) (v : Word) : ReadValue := if c then .unspec else .exact v

/-- RegRead(a) (rule R63). -/
def State.regRead (s : State) (a : Addr) : ReadValue :=
  match registerAt a with
  | .key i => .exact (s.key.get i)
  | .x i => unspecIf (s.pendingWrites.contains .x) (s.x.get i)
  | .y i => unspecIf (s.pendingWrites.contains .y) (s.y.get i)
  | .cmd => .exact s.cmd
  | .status => .exact s.statusWord
  | .ctrl => .exact s.ctrlWord
  | .trailCount => unspecIf (s.pendingWrites.contains .trailCount) s.trailCount
  | .config => .exact configWord
  | .sk g i => unspecIf (s.pendingWrites.contains .sk || !s.skWritten) ((s.sk[g]).get i)
  | .trail n w =>
    unspecIf (s.pendingWrites.contains .trail || decide (s.trailCount.toNat ≤ n.val)) ((s.trail[n]).get w)
  | .reserved => .exact 0x0000

/-- The bus returns a value to the host; an unspecified one is the next free value (rules R14, R63, item U2). -/
def State.returnValue (s : State) : ReadValue → State
  | .exact v => { s with rdata := v }
  | .unspec => { s with rdata := Config.unspec s.unspecDrawn, unspecDrawn := s.unspecDrawn + 1 }

/-- A write dropped because a command is in flight: BWE <- 1 (rules R28, R101). -/
def State.busyWrite (s : State) : State := { s with bwe := true }

/-- KEY[i] <- v; KSV <- 0 (rules R27, R62). -/
def State.writeKey (s : State) (i : Fin 8) (v : Word) : State :=
  { s with key := s.key.set i v, ksv := false }

/-- CMD <- v (rule R22). -/
def State.storeCmd (s : State) (v : Word) : State := { s with cmd := v }

/-- CMD <- v; Submit(v) (rules R22, R62). -/
def State.writeCmd (s : State) (v : Word) : State := (s.storeCmd v).submit v

/-- RegWrite(a, v) (rule R62). -/
def State.regWrite (s : State) (a : Addr) (v : Word) : State :=
  match registerAt a with
  | .status => s.writeStatus v
  | .key i => if s.busy then s.busyWrite else s.writeKey i v
  | .x i => if s.busy then s.busyWrite else s.setX (s.x.set i v)
  | .y i => if s.busy then s.busyWrite else s.setY (s.y.set i v)
  | .ctrl => if s.busy then s.busyWrite else s.writeCtrl v
  | .cmd => if s.busy then s.busyWrite else s.writeCmd v
  | .trailCount => s
  | .config => s
  | .sk _ _ => s
  | .trail _ _ => s
  | .reserved => s

/-- Reset asserted (rules R114, R115): the engine is as after power-on, whatever was pending; the host's program, the
order of moves, the last value the host read and the count of free values stand outside the engine and stay. -/
def State.assertReset (s : State) : State :=
  { State.reset with
    rdata := s.rdata
    unspecDrawn := s.unspecDrawn
    program := s.program
    schedule := s.schedule }

end Sys2Proof.Machine
end

