-- ==== Sys2Proof/Machine/Agents.lean ====
section
/-! DEFINITION. The agents and their turns (10_state.md, rule R35; 20_memory.md, rule R46; 60_exceptions.md, rule R102;
rules R60, R114): who moves next, what it fetches, and what a turn changes around the instruction. -/

namespace Sys2Proof.Machine

/-- Who moves next: the schedule's next agent; when the schedule has run out, the engine while a command is pending and
the host otherwise.  Any finite interleaving is some schedule (rule R102: "A model must admit both orders"), and a
command is never left pending for ever (rules R35, R127: weak fairness).  Assumption log 3. -/
def State.mover (s : State) : Agent :=
  match s.schedule with
  | agent :: _ => agent
  | [] => if s.busy then .engine else .host

/-- The turn is used up. -/
def State.takeTurn (s : State) : State := { s with schedule := s.schedule.tail }

/-- The operation at the head of the host's program is over. -/
def State.popProgram (s : State) : State := { s with program := s.program.tail }

/-- What the agent whose turn it is fetches: the engine its pending command word, the host its next transaction (the
read of a `poll` among them).  None for a reset, an idle engine and an idle host. -/
def State.fetch (s : State) : Option Fetched :=
  match s.mover with
  | .engine => s.pending.map Fetched.command
  | .host =>
    match s.program with
    | .bus t :: _ => some (.bus t)
    | .poll a _ _ :: _ => some (.bus (.read a))
    | [] => none
  | .reset => none

/-- The state the fetched instruction runs in: the turn is used up and a bus operation is taken off the program; a
`poll` stays until it succeeds. -/
def State.afterFetch (s : State) : State :=
  match s.mover, s.program with
  | .host, .bus _ :: _ => s.takeTurn.popProgram
  | _, _ => s.takeTurn

/-- The mask and value of the poll the host is at, if it is the host's turn and at a poll. -/
def State.polling (s : State) : Option (Word × Word) :=
  match s.mover, s.program with
  | .host, .poll _ mask value :: _ => some (mask, value)
  | _, _ => none

/-- After the read of a `poll`: the poll is over when (value AND MASK) = VALUE, else it is repeated (rule R60). -/
def State.settlePoll (s : State) (poll : Option (Word × Word)) : State :=
  match poll with
  | some (mask, value) => if s.rdata &&& mask = value then s.popProgram else s
  | none => s

/-- A turn on which nothing is fetched: a reset takes effect, an idle engine or an idle host does nothing. -/
def State.turnWithoutFetch (s : State) : State :=
  match s.mover with
  | .reset => s.takeTurn.assertReset
  | .host => s.takeTurn
  | .engine => s.takeTurn

end Sys2Proof.Machine
end

