-- ==== Sys2Proof/Machine/Bus.lean ====
section
/-! DEFINITION. The host bus transactions (40_host_bus.md, rules R62 and R63): REGWR and REGRD. -/

namespace Sys2Proof.Machine

/-- REGWR a, v (rule R62). -/
def execRegwr (a : Addr) (v : Word) (s : State) : Host.Outcome State Fault Refusal :=
  .next (s.regWrite a v)

/-- REGRD a (rule R63). -/
def execRegrd (a : Addr) (s : State) : Host.Outcome State Fault Refusal :=
  .next (s.returnValue (s.regRead a))

end Sys2Proof.Machine
end

