-- ==== Sys2Proof/Machine/KeySchedule.lean ====
section
/-! DEFINITION. The key schedule (42_key_schedule.md, rules R80 to R83): KPERM and KSCHED. -/

namespace Sys2Proof.Machine

/-- KPERM(K, c), the key permutation with counter c (rule R80). -/
def kperm (k : KeyWords) (c : Word) : KeyWords :=
  let a := roundA (k.k0, k.k1)
  let k2 := k.k2 + a.1
  let k3 := k.k3 + a.2
  let k7 := k.k7 + c
  ⟨k.k6, k7, a.1, a.2, k2, k3, k.k4, k.k5⟩

/-- A group is "the first 2·RPS = 6 words of the register" (rule R81). -/
def KeyWords.firstSix (k : KeyWords) : SubkeyGroup := ⟨k.k0, k.k1, k.k2, k.k3, k.k4, k.k5⟩

/-- What the loop of KSCHED carries: KREG and SK. -/
structure KeyExpansion where
  kreg : KeyWords
  sk : Vector SubkeyGroup 17
  deriving DecidableEq, Repr

/-- One turn of KSCHED's loop over g: SK[g] <- KREG[0..5], then KREG <- KPERM(KREG, g + 1) (rule R81). -/
def expandGroup (e : KeyExpansion) (g : Nat) : KeyExpansion :=
  { kreg := kperm e.kreg (BitVec.ofNat 16 (g + 1)), sk := e.sk.setIfInBounds g e.kreg.firstSix }

/-- KSCHED's loop, `for g = 0 to 16`, from KREG <- KEY (rule R81). -/
def expandKey (key : KeyWords) (sk : Vector SubkeyGroup 17) : KeyExpansion :=
  (countUp 0 16).foldl expandGroup ⟨key, sk⟩

/-- KREG_g, the register state from which SK[g] is copied (rule R82), as a recursion of its own. -/
def kregBefore (key : KeyWords) : Nat → KeyWords
  | 0 => key
  | g + 1 => kperm (kregBefore key g) (BitVec.ofNat 16 (g + 1))

/-- The schedule of a key: the 17 groups, each the first six words of its register state (rule R82). -/
def scheduleOf (key : KeyWords) : Vector SubkeyGroup 17 :=
  Vector.ofFn (fun g => (kregBefore key g.val).firstSix)

/-- KSCHED (rule R81): SK and KREG from KEY, then KSV <- 1.  It needs no prior key state. -/
def execKsched (s : State) : Host.Outcome State Fault Refusal :=
  .next (runCommand true false s (fun s =>
    let e := expandKey s.key s.sk
    { s with sk := e.sk, kreg := e.kreg, ksv := true, skWritten := true }))

end Sys2Proof.Machine
end

