-- ==== Sys2Proof/Machine/Linear.lean ====
section
/-! DEFINITION. The standalone linear layer (44_step_commands.md, rules R93 and R94): LFWD and LINV. -/

namespace Sys2Proof.Machine

/-- LFWD: X <- L(X).  It needs no key and ignores FINAL_L (rule R93). -/
def execLfwd (s : State) : Host.Outcome State Fault Refusal :=
  .next (runCommand true false s (fun s => s.setX (layer s.x)))

/-- LINV: X <- L_inverse(X).  It needs no key and ignores FINAL_L (rule R94). -/
def execLinv (s : State) : Host.Outcome State Fault Refusal :=
  .next (runCommand true false s (fun s => s.setX (layerInv s.x)))

end Sys2Proof.Machine
end

