-- ==== Sys2Proof/Machine/Rounds.lean ====
section
/-! DEFINITION. Round-indexed encryption and decryption (43_round_commands.md, rules R84 to R88): ENCR and DECR. -/

namespace Sys2Proof.Machine

/-- ENCR's loops: for each branch, ER in each round from r1 up to r2; no L, no whitening (rule R84). -/
def encryptRounds (sk : Vector SubkeyGroup 17) (r1 r2 : Nat) (x : Block) : Block :=
  Branch.all.foldl (fun x b => (countUp r1 r2).foldl (encRound sk b) x) x

/-- DECR's loops: for each branch, DR in each round from r2 down to r1, each round with the subkeys of its own step
(rules R85, R88). -/
def decryptRounds (sk : Vector SubkeyGroup 17) (r1 r2 : Nat) (x : Block) : Block :=
  Branch.all.foldl (fun x b => (countDown r2 r1).foldl (decRound sk b) x) x

/-- ENCR r1, r2 (rule R84). -/
def execEncr (r1 r2 : Nat) (s : State) : Host.Outcome State Fault Refusal :=
  .next (runCommand (legalRounds r1 r2) true s (fun s => s.setX (encryptRounds s.sk r1 r2 s.x)))

/-- DECR r1, r2 (rule R85). -/
def execDecr (r1 r2 : Nat) (s : State) : Host.Outcome State Fault Refusal :=
  .next (runCommand (legalRounds r1 r2) true s (fun s => s.setX (decryptRounds s.sk r1 r2 s.x)))

end Sys2Proof.Machine
end

