-- ==== Sys2Proof/Machine/Steps.lean ====
section
/-! DEFINITION. Step-indexed encryption and decryption (44_step_commands.md, rules R89 to R92): ENCS and DECS. -/

namespace Sys2Proof.Machine

/-- One step of ENCS: all rounds of all branches, branch by branch, then L where LAFTER(s) (rule R89). -/
def encryptStep (sk : Vector SubkeyGroup 17) (finalL : Bool) (x : Block) (s : Nat) : Block :=
  let x := Branch.all.foldl (fun x b => (roundsOfStep s).foldl (encRound sk b) x) x
  if layerAfter finalL s then layer x else x

/-- ENCS: the steps s1 up to s2, then the terminal whitening when s2 = 8 (rule R89). -/
def encryptSteps (sk : Vector SubkeyGroup 17) (finalL : Bool) (s1 s2 : Nat) (x : Block) : Block :=
  let x := (countUp s1 s2).foldl (encryptStep sk finalL) x
  if s2 = 8 then whiten sk x else x

/-- One step of DECS: L_inverse where LAFTER(s), then each branch's rounds in reverse order (rule R90). -/
def decryptStep (sk : Vector SubkeyGroup 17) (finalL : Bool) (x : Block) (s : Nat) : Block :=
  let x := if layerAfter finalL s then layerInv x else x
  Branch.all.foldl (fun x b => (roundsOfStep s).reverse.foldl (decRound sk b) x) x

/-- DECS: the terminal whitening stripped first when s2 = 8, then the steps s2 down to s1 (rule R90). -/
def decryptSteps (sk : Vector SubkeyGroup 17) (finalL : Bool) (s1 s2 : Nat) (x : Block) : Block :=
  let x := if s2 = 8 then whiten sk x else x
  (countDown s2 s1).foldl (decryptStep sk finalL) x

/-- ENCS s1, s2 (rule R89). -/
def execEncs (s1 s2 : Nat) (s : State) : Host.Outcome State Fault Refusal :=
  .next (runCommand (legalSteps s1 s2) true s (fun s =>
    s.setX (encryptSteps s.sk s.finalL s1 s2 s.x)))

/-- DECS s1, s2 (rule R90). -/
def execDecs (s1 s2 : Nat) (s : State) : Host.Outcome State Fault Refusal :=
  .next (runCommand (legalSteps s1 s2) true s (fun s =>
    s.setX (decryptSteps s.sk s.finalL s1 s2 s.x)))

end Sys2Proof.Machine
end

