-- ==== Sys2Proof/Machine/Trail.lean ====
section
/-! DEFINITION. Trail propagation (45_trail.md, rules R95 to R97): TRAIL. -/

namespace Sys2Proof.Machine

/-- What the loops of TRAIL carry: the two states, the next record's index n and the buffer. -/
structure TrailRun where
  x : Block
  y : Block
  n : Nat
  trail : Vector TrailRecord 32
  deriving DecidableEq, Repr

/-- EMIT(kind, s, r): TRAIL[n] <- (kind, s, r, X ⊕ Y, 0x0000), then n <- n + 1 (rules R21, R95). -/
def TrailRun.emit (t : TrailRun) (kind s r : Nat) : TrailRun :=
  let d := t.x.xor t.y
  { t with
    trail := t.trail.setIfInBounds t.n
      ⟨BitVec.ofNat 16 kind, BitVec.ofNat 16 s, BitVec.ofNat 16 r, d.w0, d.w1, d.w2, d.w3, 0x0000⟩
    n := t.n + 1 }

/-- One round of TRAIL: ER on both branches of both states, then a record of kind 1 (rule R95). -/
def TrailRun.round (sk : Vector SubkeyGroup 17) (s : Nat) (t : TrailRun) (r : Nat) : TrailRun :=
  let t := Branch.all.foldl (fun (t : TrailRun) b => { t with x := encRound sk b t.x r, y := encRound sk b t.y r }) t
  t.emit 1 s r

/-- One step of TRAIL: its three rounds, then, where LAFTER(s), L on both states and a record of kind 2 (rule R95). -/
def TrailRun.step (sk : Vector SubkeyGroup 17) (finalL : Bool) (t : TrailRun) (s : Nat) : TrailRun :=
  let t := (roundsOfStep s).foldl (TrailRun.round sk s) t
  if layerAfter finalL s then TrailRun.emit { t with x := layer t.x, y := layer t.y } 2 s 0 else t

/-- TRAIL's loops: steps 1 to N, then, when N = 8, the whitening of both states, which makes no record (rule R95). -/
def propagate (sk : Vector SubkeyGroup 17) (finalL : Bool) (steps : Nat) (t : TrailRun) : TrailRun :=
  let t := (countUp 1 steps).foldl (TrailRun.step sk finalL) t
  if steps = 8 then { t with x := whiten sk t.x, y := whiten sk t.y } else t

/-- TRAIL N (rule R95). -/
def execTrail (n : Nat) (s : State) : Host.Outcome State Fault Refusal :=
  .next (runCommand (legalCount n) true s (fun s =>
    let t := propagate s.sk s.finalL n ⟨s.x, s.y, 0, s.trail⟩
    { s with x := t.x, y := t.y, trail := t.trail, trailCount := BitVec.ofNat 16 t.n }))

end Sys2Proof.Machine
end

