-- ==== Sys2Proof/Machine/Dispatch.lean ====
section
/-! DEFINITION. The dispatch: one arm for each instruction.  A command's arm is the engine's step on that command
(rule R35); a bus transaction's arm is the host's access. -/

namespace Sys2Proof.Machine

def exec (i : Instr) (s : State) : Host.Outcome State Fault Refusal :=
  match i with
  | .ksched => Sys2Proof.Machine.execKsched s
  | .encr r1 r2 => Sys2Proof.Machine.execEncr r1 r2 s
  | .decr r1 r2 => Sys2Proof.Machine.execDecr r1 r2 s
  | .encs s1 s2 => Sys2Proof.Machine.execEncs s1 s2 s
  | .decs s1 s2 => Sys2Proof.Machine.execDecs s1 s2 s
  | .lfwd => Sys2Proof.Machine.execLfwd s
  | .linv => Sys2Proof.Machine.execLinv s
  | .trail n => Sys2Proof.Machine.execTrail n s
  | .regwr a v => Sys2Proof.Machine.execRegwr a v s
  | .regrd a => Sys2Proof.Machine.execRegrd a s

end Sys2Proof.Machine
end

