-- ==== Sys2Proof/Machine/Step.lean ====
section
/-! DEFINITION. One step of the machine: one agent's move (10_state.md, rule R35; 20_memory.md, rule R46). -/

namespace Sys2Proof.Machine

/-- One step: the agent whose turn it is runs what it fetches. -/
def step (s : State) : Host.Outcome State Fault Refusal :=
  match s.fetch with
  | none => .next s.turnWithoutFetch
  | some (.command w) =>
    match decode (.command w) with
    | some i => exec i s.afterFetch
    | none => .fault (.pendingNotACommand w)
  | some (.bus t) =>
    match exec (decodeBus t) s.afterFetch with
    | .next s' => .next (s'.settlePoll s.polling)
    | .fault f => .fault f
    | .refused r => .refused r

/-- The state in which the very next step runs the command word of which the opcode table gives the low `nbits` bits:
the word stands in PENDING and the next move is the engine's.  This stands for a host's write of the word to CMD having
been accepted (rules R18, R98); assumption log 4. -/
def State.withFetchWord (s : State) (nbits w : Nat) : State :=
  { s with pending := some (tableWord nbits w), schedule := .engine :: s.schedule }

end Sys2Proof.Machine
end

