-- ==== Sys2Proof/Safety.lean ====
section
/-! DEFINITION. What holds of the machine in every state a run from reset reaches. -/

namespace Sys2Proof.Safety

open Sys2Proof.Machine

/-- The command in flight is one that was accepted (rules R35, R98): PENDING is the word in CMD, it decodes to a well-formed
command, a command that uses SK has a valid schedule (rule R99), and the flags are as acceptance left them. -/
structure PendingAccepted (s : State) (w : Word) : Prop where
  inCmd : s.cmd = w
  legal : ∃ i, decode (.command w) = some i ∧ i.wellFormed = true ∧ (i.usesKey = true → s.ksv = true)
  noError : s.err = false ∧ s.ecode = .none
  notDone : s.done = false
  schedulePending : decode (.command w) = some .ksched → s.ksv = false

/-- The control invariant of the engine. -/
structure Inv (s : State) : Prop where
  /-- BUSY = 1 only for an accepted command (rule R24). -/
  pendingAccepted : ∀ w, s.pending = some w → PendingAccepted s w
  /-- ERR = 1 exactly when ECODE names an error (rules R26, R29). -/
  errHasCode : s.err = true ↔ s.ecode ≠ .none
  /-- A rejected word is not a completed command (rules R25, R100). -/
  notDoneAndErr : ¬ (s.done = true ∧ s.err = true)
  /-- KSV = 1: "SK holds the schedule of the current KEY contents" (rules R23, R27). -/
  scheduleValid : s.ksv = true → s.skWritten = true ∧ s.sk = scheduleOf s.key
  /-- TRAIL_COUNT is in 0..32 (rule R32). -/
  countInRange : s.trailCount.toNat ≤ 32

/-- A record as TRAIL makes them (rule R21): after a round r of step s, or after the linear layer of step s. -/
def RecordWellFormed (r : TrailRecord) : Prop :=
  r.reserved = 0x0000 ∧ 1 ≤ r.step.toNat ∧ r.step.toNat ≤ 8 ∧
    ((r.kind = 1 ∧ 1 ≤ r.round.toNat ∧ r.round.toNat ≤ 24 ∧ r.step.toNat = stepOf r.round.toNat) ∨ (r.kind = 2 ∧ r.round = 0))

/-- Every valid record of the trail buffer, those below TRAIL_COUNT, is as rule R21 describes it. -/
def TrailInv (s : State) : Prop :=
  s.trailCount.toNat ≤ 32 ∧ ∀ n : Fin 32, n.val < s.trailCount.toNat → RecordWellFormed s.trail[n]

/-- The states a run from a state reaches. -/
inductive Reaches : State → State → Prop where
  | refl (s : State) : Reaches s s
  | step {s t u : State} : Reaches s t → Machine.step t = .next u → Reaches s u

/-- k steps lead from a state to another. -/
def StepsTo : Nat → State → State → Prop
  | 0, s, t => s = t
  | k + 1, s, t => ∃ u, Machine.step s = .next u ∧ StepsTo k u t

/-- A safe run: no step of it stops. -/
def NeverStops (s : State) : Prop := ∀ t, Reaches s t → ∃ u, Machine.step t = .next u

end Sys2Proof.Safety
end

