-- ==== Sys2Proof/Certificates/Slice0/Obligations.lean ====
section
/-! DEFINITION. The statements about the model, each a `def Obligations.<Name> : Prop`; OBLIGATIONS.json lists them. -/

open Sys2Proof Sys2Proof.Machine Sys2Proof.Safety

namespace Sys2Proof.Statements

/-- On its turn the host writes v to address a. -/
def hostWrites (s : State) (a : Addr) (v : Word) : Prop :=
  s.mover = .host ∧ ∃ rest, s.program = .bus (.write a v) :: rest

/-- On its turn the engine has the command i in PENDING. -/
def engineRuns (s : State) (i : Instr) : Prop :=
  s.mover = .engine ∧ ∃ w, s.pending = some w ∧ decode (.command w) = some i

/-- A command i is in PENDING. -/
def commandPending (s : State) (i : Instr) : Prop :=
  ∃ w, s.pending = some w ∧ decode (.command w) = some i

/-- REGRD of a returns v and changes nothing else. -/
def readsExactly (s : State) (a : Addr) (v : Word) : Prop :=
  exec (.regrd a) s = .next { s with rdata := v }

/-- REGRD of a returns the next free value and changes nothing else of the machine's. -/
def readsUnspec (s : State) (a : Addr) : Prop :=
  exec (.regrd a) s =
    .next { s with rdata := Config.unspec s.unspecDrawn, unspecDrawn := s.unspecDrawn + 1 }

/-- A register whose write sets BWE while BUSY = 1: KEY, X, Y, CMD (0x000..0x010) or CTRL (0x012). -/
def busyGuarded (a : Addr) : Prop := a.toNat ≤ 0x010 ∨ a = 0x012

/-- A read-only register or window: TRAIL_COUNT, CONFIG, the SK window, the trail window. -/
def readOnly (a : Addr) : Prop :=
  a = 0x013 ∨ a = 0x014 ∨ (0x100 ≤ a.toNat ∧ a.toNat ≤ 0x165) ∨ (0x200 ≤ a.toNat ∧ a.toNat ≤ 0x2FF)

/-- A reserved address. -/
def reservedAddr (a : Addr) : Prop :=
  (0x015 ≤ a.toNat ∧ a.toNat ≤ 0x0FF) ∨ (0x166 ≤ a.toNat ∧ a.toNat ≤ 0x1FF) ∨
    (0x300 ≤ a.toNat ∧ a.toNat ≤ 0x3FF)

/-- The command's effect on X alone: everything else but PENDING (hence BUSY) and DONE is unchanged. -/
def completesWithX (s t : State) : Prop := t = { s with x := t.x, pending := none, done := true }

end Sys2Proof.Statements

open Sys2Proof.Statements

/-! ### Encoding -/

/-- Every well-formed instruction, at every operand value its encoding admits, is what its encoding decodes to
(rules R53 to R57, R60). -/
def Obligations.DecodeOfEncodeIsTheInstruction : Prop :=
  ∀ i : Instr, i.wellFormed = true → decode (encode i) = some i

/-- No two encodings stand for one instruction: what decodes to i is the encoding of i. -/
def Obligations.EncodeOfDecodeIsTheWord : Prop :=
  ∀ (f : Fetched) (i : Instr), decode f = some i → encode i = f

/-- No word selects two rows of the opcode map (rule R55). -/
def Obligations.NoTwoOpcodeRowsOverlap : Prop :=
  ∀ w : Word, ∀ row ∈ opcodeTable, ∀ row' ∈ opcodeTable, row.selects w = true → row'.selects w = true → row = row'

/-- The encoding examples of 30_encoding.md section 6, one of each command. -/
def Obligations.SpecWordsDecode : Prop :=
  decode (.command 0b0001_00_00000_00000) = some .ksched ∧
  decode (.command 0b0010_00_00001_00100) = some (.encr 1 4) ∧
  decode (.command 0b0011_00_10110_11000) = some (.decr 22 24) ∧
  decode (.command 0b0100_00_00010_00011) = some (.encs 2 3) ∧
  decode (.command 0b0101_00_00010_00101) = some (.decs 2 5) ∧
  decode (.command 0b0110_00_00000_00000) = some .lfwd ∧
  decode (.command 0b0111_00_00000_00000) = some .linv ∧
  decode (.command 0b1000_00_00000_00010) = some (.trail 2) ∧
  decode (.command 0x0000) = none ∧ decode (.command 0x9000) = none ∧ decode (.command 0x2C21) = none ∧
  decode (.command 0x6001) = none ∧
  decode (.bus (.write 0x3FF 0xAAAA)) = some (.regwr 0x3FF 0xAAAA) ∧
  decode (.bus (.read 0x165)) = some (.regrd 0x165)

/-- The acceptance check of the word (rule R99) and the decoder (rule R55) agree: a word passes exactly when it decodes to
a well-formed command whose schedule, if it uses one, is valid; it fails with EILLOP or ERSV exactly when it decodes to
nothing. -/
def Obligations.CheckAgreesWithDecoder : Prop :=
  ∀ (w : Word) (ksv : Bool),
    (check w ksv = .none ↔
      ∃ i, decode (.command w) = some i ∧ i.wellFormed = true ∧ (i.usesKey = true → ksv = true)) ∧
    (decode (.command w) = none ↔ check w ksv = .illop ∨ check w ksv = .rsv)

/-- Check(v) of rule R99, cause by cause in the order of priority; the code is the one recorded in ECODE and the word
stays in CMD. -/
def Obligations.CheckGivesTheFirstCause : Prop :=
  ∀ (v : Word) (ksv : Bool),
    let op := (opField v).toNat
    let lo := (fromField v).toNat
    let hi := (toField v).toNat
    let illop := op = 0 ∨ 9 ≤ op
    let rsv := rsvField v ≠ 0 ∨ ((op = 1 ∨ op = 6 ∨ op = 7) ∧ v.extractLsb 9 0 ≠ 0) ∨ (op = 8 ∧ lo ≠ 0)
    let range := ((op = 2 ∨ op = 3) ∧ ¬ (1 ≤ lo ∧ lo ≤ hi ∧ hi ≤ 24)) ∨
      ((op = 4 ∨ op = 5) ∧ ¬ (1 ≤ lo ∧ lo ≤ hi ∧ hi ≤ 8)) ∨ (op = 8 ∧ ¬ (1 ≤ hi ∧ hi ≤ 8))
    let nokey := ksv = false ∧ (op = 2 ∨ op = 3 ∨ op = 4 ∨ op = 5 ∨ op = 8)
    (illop → check v ksv = .illop) ∧
    (¬ illop → rsv → check v ksv = .rsv) ∧
    (¬ illop → ¬ rsv → range → check v ksv = .range) ∧
    (¬ illop → ¬ rsv → ¬ range → nokey → check v ksv = .nokey) ∧
    (¬ illop → ¬ rsv → ¬ range → ¬ nokey → check v ksv = .none) ∧
    (ECode.illop.bits = 1 ∧ ECode.rsv.bits = 2 ∧ ECode.range.bits = 3 ∧ ECode.nokey.bits = 4) ∧
    (∀ s : State, s.busy = false → s.ksv = ksv →
      ∃ t, exec (.regwr 0x010 v) s = .next t ∧ t.ecode = check v ksv ∧ t.cmd = v ∧
        (t.err = true ↔ check v ksv ≠ .none))

/-! ### Host writes -/

/-- Host writes to KEY, X, Y and CTRL while BUSY = 0 (rule R62): the register gets the datum (FINAL_L its bit 0), a KEY
write clears KSV, and nothing else changes. -/
def Obligations.DataRegisterWrites : Prop :=
  ∀ (s : State) (a : Addr) (v : Word), s.busy = false →
    (∀ i : Fin 8, a.toNat = i.val → ∃ t, exec (.regwr a v) s = .next t ∧ t = { s with key := t.key, ksv := false } ∧
      ∀ j, t.key.get j = if j = i then v else s.key.get j) ∧
    (∀ i : Fin 4, a.toNat = 0x008 + i.val → ∃ t, exec (.regwr a v) s = .next t ∧ t = { s with x := t.x } ∧
      ∀ j, t.x.get j = if j = i then v else s.x.get j) ∧
    (∀ i : Fin 4, a.toNat = 0x00C + i.val → ∃ t, exec (.regwr a v) s = .next t ∧ t = { s with y := t.y } ∧
      ∀ j, t.y.get j = if j = i then v else s.y.get j) ∧
    (a = 0x012 → exec (.regwr a v) s = .next { s with finalL := v.getLsbD 0 })

/-- A write to KEY, X, Y, CMD or CTRL while BUSY = 1 (rule R101): BWE is set, nothing else changes; and BWE and ERR may
both be 1, since a rejection leaves BWE as it was. -/
def Obligations.BusyWriteIsDropped : Prop :=
  (∀ (s : State) (a : Addr) (v : Word), s.busy = true → busyGuarded a →
    exec (.regwr a v) s = .next { s with bwe := true }) ∧
  (∀ (s : State) (v : Word), s.busy = false → s.bwe = true → check v s.ksv ≠ .none →
    ∃ t, exec (.regwr 0x010 v) s = .next t ∧ t.bwe = true ∧ t.err = true)

/-- STATUS.BWE and writes to STATUS (rules R28 and R30), whatever BUSY is: bit 4 of the datum clears BWE, no other bit of
it has an effect, a read of STATUS is exact and changes nothing. -/
def Obligations.StatusWriteOnlyClearsBwe : Prop :=
  (∀ (s : State) (v : Word),
    exec (.regwr 0x011 v) s = .next { s with bwe := if v.getLsbD 4 then false else s.bwe } ∧
    readsExactly s 0x011 s.statusWord) ∧
  (∀ (s : State) (a : Addr) (v : Word), s.busy = true → busyGuarded a →
    exec (.regwr a v) s = .next { s with bwe := true })

/-- Reserved addresses and read-only registers (rule R39). -/
def Obligations.ReservedAndReadOnlyAddresses : Prop :=
  (∀ (s : State) (a : Addr), reservedAddr a → readsExactly s a 0x0000) ∧
  (∀ (s : State) (a : Addr) (v : Word), reservedAddr a ∨ readOnly a → exec (.regwr a v) s = .next s)

/-- Writing KEY, X, Y or CTRL twice is writing it once, and after it the register reads the datum (CTRL its bit 0)
(rule R44). -/
def Obligations.DataWritesAreIdempotent : Prop :=
  ∀ (s t : State) (a : Addr) (v : Word), (a.toNat ≤ 0x00F ∨ a = 0x012) → exec (.regwr a v) s = .next t →
    exec (.regwr a v) t = .next t ∧
    (s.busy = false → readsExactly t a (if a = 0x012 then v &&& 0x0001 else v))

/-! ### Submission of a command word -/

/-- Submit(v) (rule R98).  An accepted word: CMD and PENDING hold it, ERR, ECODE and DONE are cleared, KSV too for a KSCHED,
and no data register changes.  A word that fails the check is rejected with the check's code (rule R100). -/
def Obligations.CommandWordIsSubmitted : Prop :=
  ∀ (s : State) (v : Word), s.busy = false →
    (check v s.ksv = .none →
      exec (.regwr 0x010 v) s =
        .next { s with
          cmd := v
          err := false
          ecode := .none
          done := false
          ksv := if (opField v).toNat = 1 then false else s.ksv
          pending := some v }) ∧
    (check v s.ksv ≠ .none →
      exec (.regwr 0x010 v) s =
        .next { s with cmd := v, err := true, ecode := check v s.ksv, done := false })

/-- Reject(e) (rule R100): ERR <- 1, ECODE <- e, DONE <- 0, CMD holds the word, and nothing else changes; the next read of
STATUS shows it. -/
def Obligations.RejectionIsPrecise : Prop :=
  ∀ (s : State) (v : Word), s.busy = false → check v s.ksv ≠ .none →
    ∃ t, exec (.regwr 0x010 v) s = .next t ∧
      t = { s with cmd := v, err := true, ecode := check v s.ksv, done := false } ∧ t.busy = false ∧
      ∃ st : Word, readsExactly t 0x011 st ∧ st.getLsbD 2 = true ∧ st.extractLsb 11 8 = (check v s.ksv).bits ∧
        st.getLsbD 0 = false ∧ st.getLsbD 1 = false

/-! ### Host reads -/

/-- RegRead(a) for every address (rule R63), with W spelled out: every pending command but KSCHED writes X, TRAIL writes Y,
TRAIL and TRAIL_COUNT as well, and KSCHED writes SK (rule R64).  That each UNSPEC read draws a free value of its own, and the
flag `skWritten`, are the model's (assumption log 5 and 7). -/
def Obligations.RegisterReadByAddress : Prop :=
  ∀ (s : State) (a : Addr),
    (∀ i : Fin 8, a.toNat = i.val → readsExactly s a (s.key.get i)) ∧
    (∀ i : Fin 4, a.toNat = 0x008 + i.val →
      ((∃ c, commandPending s c ∧ c ≠ .ksched) → readsUnspec s a) ∧
      ((¬ ∃ c, commandPending s c ∧ c ≠ .ksched) → readsExactly s a (s.x.get i))) ∧
    (∀ i : Fin 4, a.toNat = 0x00C + i.val →
      ((∃ n, commandPending s (.trail n)) → readsUnspec s a) ∧
      ((¬ ∃ n, commandPending s (.trail n)) → readsExactly s a (s.y.get i))) ∧
    (a = 0x010 → readsExactly s a s.cmd) ∧
    (a = 0x011 → readsExactly s a s.statusWord) ∧
    (a = 0x012 → readsExactly s a (if s.finalL then 0x0001 else 0x0000)) ∧
    (a = 0x013 →
      ((∃ n, commandPending s (.trail n)) → readsUnspec s a) ∧
      ((¬ ∃ n, commandPending s (.trail n)) → readsExactly s a s.trailCount)) ∧
    (a = 0x014 → readsExactly s a 0x0823) ∧
    (∀ (g : Fin 17) (i : Fin 6), a.toNat = 0x100 + 6 * g.val + i.val →
      (commandPending s .ksched ∨ s.skWritten = false → readsUnspec s a) ∧
      (¬ (commandPending s .ksched ∨ s.skWritten = false) → readsExactly s a (s.sk[g].get i))) ∧
    (∀ (n : Fin 32) (w : Fin 8), a.toNat = 0x200 + 8 * n.val + w.val →
      ((∃ c, commandPending s (.trail c)) ∨ s.trailCount.toNat ≤ n.val → readsUnspec s a) ∧
      (¬ ((∃ c, commandPending s (.trail c)) ∨ s.trailCount.toNat ≤ n.val) → readsExactly s a (s.trail[n].get w))) ∧
    (reservedAddr a → readsExactly s a 0x0000)

/-- The fields of STATUS as a read returns them (rule R23). -/
def Obligations.StatusWordFields : Prop :=
  (∀ s : State, ∃ st : Word, readsExactly s 0x011 st ∧
    st.getLsbD 0 = s.busy ∧ st.getLsbD 1 = s.done ∧ st.getLsbD 2 = s.err ∧ st.getLsbD 3 = s.ksv ∧
    st.getLsbD 4 = s.bwe ∧ st.extractLsb 7 5 = 0 ∧ st.extractLsb 11 8 = s.ecode.bits ∧ st.extractLsb 15 12 = 0) ∧
  (∀ (s : State) (v v' : Word), v.getLsbD 4 = v'.getLsbD 4 → exec (.regwr 0x011 v) s = exec (.regwr 0x011 v') s) ∧
  State.reset.statusWord = 0x0000

/-- No read has a side effect (rule R44): REGRD always answers, and changes nothing but what the host holds (the value
returned and the count of free values); every register then reads as it did before. -/
def Obligations.ReadsHaveNoSideEffect : Prop :=
  ∀ (s : State) (a : Addr), ∃ t, exec (.regrd a) s = .next t ∧
    t = { s with rdata := t.rdata, unspecDrawn := t.unspecDrawn } ∧ ∀ a', t.regRead a' = s.regRead a'

/-! ### The commands: results, completion and frames -/

/-- KSCHED (rules R81, R82) completes from every state: SK gets the 17 groups of KEY's schedule, KREG the register state
after the last permutation (assumption log 19), KSV is set, and nothing else changes but PENDING and DONE. -/
def Obligations.KschedFillsTheSchedule : Prop :=
  ∀ s : State, ∃ t, exec .ksched s = .next t ∧
    t = { s with sk := t.sk, kreg := t.kreg, ksv := true, skWritten := true, pending := none, done := true } ∧
    (∀ g : Fin 17, t.sk[g] = (kregBefore s.key g.val).firstSix) ∧ t.kreg = kregBefore s.key 17

/-- Group g+1 comes from the 8-word register state that produced group g (rule R82): SK[0] is KEY[0..5] and SK[g+1] is the
first six words of KPERM(KREG_g, g + 1), where SK[g] was copied from KREG_g. -/
def Obligations.GroupsComeFromTheRegister : Prop :=
  ∀ s t : State, exec .ksched s = .next t →
    t.sk[0] = ⟨s.key.k0, s.key.k1, s.key.k2, s.key.k3, s.key.k4, s.key.k5⟩ ∧
    ∃ kregs : Vector KeyWords 17, kregs[0] = s.key ∧
      ∀ g : Fin 16, t.sk[g.castSucc] = (kregs[g.castSucc]).firstSix ∧
        t.sk[g.succ] = (kperm kregs[g.castSucc] (BitVec.ofNat 16 (g.val + 1))).firstSix ∧
        kregs[g.succ] = kperm kregs[g.castSucc] (BitVec.ofNat 16 (g.val + 1))

/-- ENCR r1, r2 (rule R84): each branch, on its own, goes through the rounds r1 up to r2, a subkey XOR and then A; nothing
else changes but PENDING and DONE. -/
def Obligations.EncrAppliesTheRounds : Prop :=
  ∀ (s : State) (r1 r2 : Nat), 1 ≤ r1 → r1 ≤ r2 → r2 ≤ 24 → s.ksv = true →
    ∃ t, exec (.encr r1 r2) s = .next t ∧ completesWithX s t ∧
      ∀ b, t.x.branch b =
        (List.range' r1 (r2 + 1 - r1)).foldl (fun p r => roundA (xorPair p (subkeyPair s.sk b r))) (s.x.branch b)

/-- DECR r1, r2 (rules R85, R88): each branch, on its own, goes through the rounds r2 down to r1, A_inverse and then the
XOR with the subkeys of the round's own step; nothing else changes but PENDING and DONE. -/
def Obligations.DecrAppliesTheInverseRounds : Prop :=
  ∀ (s : State) (r1 r2 : Nat), 1 ≤ r1 → r1 ≤ r2 → r2 ≤ 24 → s.ksv = true →
    ∃ t, exec (.decr r1 r2) s = .next t ∧ completesWithX s t ∧
      ∀ b, t.x.branch b =
        (List.range' r1 (r2 + 1 - r1)).foldr (fun r p => xorPair (roundAInv p) (subkeyPair s.sk b r)) (s.x.branch b)

/-- Group use (rule R83): in round position j of step s, branch b uses the words 2j and 2j+1 of SK[2(s−1)+b]; and W uses
the words 0 to 3 of SK[16]. -/
def Obligations.SubkeyGroupsServeTheirBranchAndStep : Prop :=
  (∀ (sk : Vector SubkeyGroup 17) (s j : Nat) (b : Branch), 1 ≤ s → s ≤ 8 → j < 3 →
    ∃ (g : Fin 17) (i i' : Fin 6), g.val = 2 * (s - 1) + b.number ∧ i.val = 2 * j ∧ i'.val = 2 * j + 1 ∧
      subkeyPair sk b (3 * (s - 1) + 1 + j) = (sk[g].get i, sk[g].get i')) ∧
  (∀ (sk : Vector SubkeyGroup 17) (x : Block) (i : Fin 4),
    (whiten sk x).get i = x.get i ^^^ sk[16].get (i.castLE (by decide)))

/-- ENCS s1, s2 (rule R89): the steps in order, each the rounds of both branches and then L, except after step 8 while
FINAL_L = 0, and the terminal whitening exactly when s2 = 8; nothing else changes but PENDING and DONE. -/
def Obligations.EncsAppliesTheSteps : Prop :=
  ∀ (s : State) (s1 s2 : Nat), 1 ≤ s1 → s1 ≤ s2 → s2 ≤ 8 → s.ksv = true →
    ∃ t, exec (.encs s1 s2) s = .next t ∧ completesWithX s t ∧
      ∃ xs : Nat → Block, xs s1 = s.x ∧
        (∀ k, s1 ≤ k → k ≤ s2 →
          xs (k + 1) = if k ≠ 8 ∨ s.finalL = true then layer (encryptRounds s.sk (3 * k - 2) (3 * k) (xs k))
            else encryptRounds s.sk (3 * k - 2) (3 * k) (xs k)) ∧
        t.x = if s2 = 8 then whiten s.sk (xs (s2 + 1)) else xs (s2 + 1)

/-- DECS s1, s2 (rule R90): the whitening stripped first exactly when s2 = 8, then the steps in descending order, each
L_inverse, except for step 8 while FINAL_L = 0, and then the rounds of both branches in descending order; nothing else
changes but PENDING and DONE. -/
def Obligations.DecsAppliesTheInverseSteps : Prop :=
  ∀ (s : State) (s1 s2 : Nat), 1 ≤ s1 → s1 ≤ s2 → s2 ≤ 8 → s.ksv = true →
    ∃ t, exec (.decs s1 s2) s = .next t ∧ completesWithX s t ∧
      ∃ xs : Nat → Block, (xs (s2 + 1) = if s2 = 8 then whiten s.sk s.x else s.x) ∧
        (∀ k, s1 ≤ k → k ≤ s2 →
          xs k = decryptRounds s.sk (3 * k - 2) (3 * k)
            (if k ≠ 8 ∨ s.finalL = true then layerInv (xs (k + 1)) else xs (k + 1))) ∧
        t.x = xs s1

/-- LFWD and LINV (rules R72, R73, R93, R94) complete from every state, KSV = 0 and either FINAL_L included. -/
def Obligations.LinearLayerCommands : Prop :=
  ∀ s : State,
    (∃ t, exec .lfwd s = .next t ∧ completesWithX s t ∧
      let u := rotl (s.x.w0 ^^^ s.x.w1) 8
      t.x = ⟨s.x.w2 ^^^ s.x.w0 ^^^ u, s.x.w3 ^^^ s.x.w1 ^^^ u, s.x.w0, s.x.w1⟩) ∧
    (∃ t, exec .linv s = .next t ∧ completesWithX s t ∧
      let u := rotl (s.x.w2 ^^^ s.x.w3) 8
      t.x = ⟨s.x.w2, s.x.w3, s.x.w0 ^^^ s.x.w2 ^^^ u, s.x.w1 ^^^ s.x.w3 ^^^ u⟩)

/-- TRAIL N (rule R95) completes: X and Y; TRAIL_COUNT; the valid records in their order, each with its KIND, STEP, ROUND,
difference and reserved word, record m belonging to step m / 4 + 1; the records from TRAIL_COUNT on and all else unchanged
but PENDING and DONE. -/
def Obligations.TrailCompletes : Prop :=
  ∀ (s : State) (n : Nat), 1 ≤ n → n ≤ 8 → s.ksv = true →
    ∃ t, exec (.trail n) s = .next t ∧
      t = { s with x := t.x, y := t.y, trail := t.trail, trailCount := t.trailCount, pending := none, done := true } ∧
      t.x = encryptSteps s.sk s.finalL 1 n s.x ∧ t.y = encryptSteps s.sk s.finalL 1 n s.y ∧
      t.trailCount.toNat = (if n = 8 ∧ s.finalL = false then 31 else 4 * n) ∧
      (∀ m : Fin 32, m.val < t.trailCount.toNat → m.val % 4 < 3 →
        t.trail[m].kind = 1 ∧ t.trail[m].step.toNat = m.val / 4 + 1 ∧
        t.trail[m].round.toNat = 3 * (m.val / 4) + m.val % 4 + 1 ∧ t.trail[m].reserved = 0 ∧
        t.trail[m].difference =
          let before := (countUp 1 (m.val / 4)).foldl (encryptStep s.sk s.finalL)
          let rounds := encryptRounds s.sk (3 * (m.val / 4) + 1) (3 * (m.val / 4) + m.val % 4 + 1)
          (rounds (before s.x)).xor (rounds (before s.y))) ∧
      (∀ m : Fin 32, m.val < t.trailCount.toNat → m.val % 4 = 3 →
        t.trail[m].kind = 2 ∧ t.trail[m].step.toNat = m.val / 4 + 1 ∧ t.trail[m].round = 0 ∧
        t.trail[m].reserved = 0 ∧
        t.trail[m].difference =
          let after := (countUp 1 (m.val / 4 + 1)).foldl (encryptStep s.sk s.finalL)
          (after s.x).xor (after s.y)) ∧
      (∀ m : Fin 32, t.trailCount.toNat ≤ m.val → t.trail[m] = s.trail[m])

/-- Agreement of TRAIL with direct encryption (rule R96): X and Y are what ENCS 1, N makes of them, the last record's
difference is X ⊕ Y, and the record of round r holds the difference of the two states after ENCS 1, step(r)−1 (nothing for
step(r) = 1) and then ENCR 3(step(r)−1)+1, r, each run as a command on a state that differs in X alone. -/
def Obligations.TrailAgreesWithDirectEncryption : Prop :=
  ∀ (s t : State) (n : Nat), 1 ≤ n → n ≤ 8 → s.ksv = true → exec (.trail n) s = .next t →
    (∃ u v, exec (.encs 1 n) s = .next u ∧ exec (.encs 1 n) { s with x := s.y } = .next v ∧ t.x = u.x ∧ t.y = v.x) ∧
    (∃ m : Fin 32, m.val + 1 = t.trailCount.toNat ∧ t.trail[m].difference = t.x.xor t.y) ∧
    (∀ (m : Fin 32) (r : Nat), m.val < t.trailCount.toNat → t.trail[m].kind = 1 → t.trail[m].round.toNat = r →
      ∃ u v u' v',
        (if stepOf r = 1 then u = s ∧ v = { s with x := s.y }
         else exec (.encs 1 (stepOf r - 1)) s = .next u ∧
           exec (.encs 1 (stepOf r - 1)) { s with x := s.y } = .next v) ∧
        exec (.encr (3 * (stepOf r - 1) + 1) r) u = .next u' ∧
        exec (.encr (3 * (stepOf r - 1) + 1) r) v = .next v' ∧
        t.trail[m].difference = u'.x.xor v'.x)

/-- Write sets of the commands (rule R64): a command that runs writes, beside BUSY and DONE, nothing but its own write set:
KSCHED writes SK, KREG and KSV, TRAIL writes X, Y, TRAIL and TRAIL_COUNT, the others write X; KEY, CTRL, CMD and CONFIG are
never written.  (A command that does not run because its operands or its key are not acceptable: `UnacceptableCommandIsRejected`.) -/
def Obligations.CommandsWriteOnlyTheirWriteSet : Prop :=
  ∀ (i : Instr) (s : State), i.isCommand = true → i.wellFormed = true → (i.usesKey = true → s.ksv = true) →
    ∃ t, exec i s = .next t ∧ t.busy = false ∧ t.done = true ∧
      (i = .ksched →
        t = { s with sk := t.sk, kreg := t.kreg, ksv := true, skWritten := true, pending := none, done := true }) ∧
      ((∃ n, i = .trail n) →
        t = { s with x := t.x, y := t.y, trail := t.trail, trailCount := t.trailCount, pending := none, done := true }) ∧
      (i ≠ .ksched → (¬ ∃ n, i = .trail n) → completesWithX s t) ∧
      t.regRead 0x014 = s.regRead 0x014

/-- The model's choice (assumption log 2): a command whose operands are out of range, or that needs a schedule while KSV = 0,
run where no run from reset has it (in PENDING it has always passed these tests), has the effect of its rejection, with the
code of rule R99 and the updates of rule R100. -/
def Obligations.UnacceptableCommandIsRejected : Prop :=
  ∀ (i : Instr) (s : State),
    (i.wellFormed = false →
      exec i s = .next { s with err := true, ecode := .range, done := false, pending := none }) ∧
    (i.wellFormed = true → i.usesKey = true → s.ksv = false →
      exec i s = .next { s with err := true, ecode := .nokey, done := false, pending := none })

/-! ### Laws of the cipher -/

/-- A and A_inverse undo each other, so A is a bijection on pairs of words (rule R69). -/
def Obligations.RoundTransformIsBijective : Prop :=
  (∀ p : Word × Word, roundAInv (roundA p) = p ∧ roundA (roundAInv p) = p) ∧ Function.Bijective roundA

/-- L and L_inverse undo each other (rule R74). -/
def Obligations.LinearLayerInverts : Prop :=
  ∀ x : Block, layerInv (layer x) = x ∧ layer (layerInv x) = x

/-- MIX, SWAP and W are involutions (rules R70, R71, R78), L is linear over XOR, and L is not an involution (rule R72). -/
def Obligations.LayerPartsAreInvolutions : Prop :=
  (∀ x : Block, mix (mix x) = x ∧ swap (swap x) = x) ∧
  (∀ (sk : Vector SubkeyGroup 17) (x : Block), whiten sk (whiten sk x) = x) ∧
  (∀ x y : Block, layer (x.xor y) = (layer x).xor (layer y)) ∧
  layer (layer ⟨0x0001, 0, 0, 0⟩) = ⟨0, 0, 0x0101, 0x0100⟩

/-- Branch independence (rule R79): rounds of different branches commute, so in a range without L either branch may be
processed first. -/
def Obligations.BranchesAreIndependent : Prop :=
  (∀ (sk : Vector SubkeyGroup 17) (b b' : Branch) (r r' : Nat) (x : Block), b ≠ b' →
    encRound sk b' (encRound sk b x r) r' = encRound sk b (encRound sk b' x r') r ∧
    decRound sk b' (decRound sk b x r) r' = decRound sk b (decRound sk b' x r') r ∧
    decRound sk b' (encRound sk b x r) r' = encRound sk b (decRound sk b' x r') r) ∧
  (∀ (sk : Vector SubkeyGroup 17) (r1 r2 : Nat) (x : Block),
    encryptRounds sk r1 r2 x =
      (countUp r1 r2).foldl (encRound sk .b0) ((countUp r1 r2).foldl (encRound sk .b1) x) ∧
    decryptRounds sk r1 r2 x =
      (countDown r2 r1).foldl (decRound sk .b0) ((countDown r2 r1).foldl (decRound sk .b1) x))

/-- Round trip of the round commands (rule R86), in both orders. -/
def Obligations.RoundCommandsRoundTrip : Prop :=
  ∀ (s : State) (r1 r2 : Nat), 1 ≤ r1 → r1 ≤ r2 → r2 ≤ 24 → s.ksv = true →
    (∃ t u, exec (.encr r1 r2) s = .next t ∧ exec (.decr r1 r2) t = .next u ∧ u.x = s.x) ∧
    (∃ t u, exec (.decr r1 r2) s = .next t ∧ exec (.encr r1 r2) t = .next u ∧ u.x = s.x)

/-- Round trip of the step commands (rule R91), for either FINAL_L held equal and one key schedule. -/
def Obligations.StepCommandsRoundTrip : Prop :=
  ∀ (s : State) (s1 s2 : Nat), 1 ≤ s1 → s1 ≤ s2 → s2 ≤ 8 → s.ksv = true →
    ∃ t u, exec (.encs s1 s2) s = .next t ∧ exec (.decs s1 s2) t = .next u ∧ u.x = s.x

/-- LINV undoes LFWD and LFWD undoes LINV (rules R74, R94). -/
def Obligations.LinearCommandsRoundTrip : Prop :=
  ∀ s : State,
    (∃ t u, exec .lfwd s = .next t ∧ exec .linv t = .next u ∧ u.x = s.x) ∧
    (∃ t u, exec .linv s = .next t ∧ exec .lfwd t = .next u ∧ u.x = s.x)

/-- Composition of the step commands (rule R92). -/
def Obligations.StepCommandsCompose : Prop :=
  (∀ (s : State) (s1 m s2 : Nat), 1 ≤ s1 → s1 ≤ m → m < s2 → s2 ≤ 8 → s.ksv = true →
    (∃ t u v, exec (.encs s1 s2) s = .next t ∧ exec (.encs s1 m) s = .next u ∧ exec (.encs (m + 1) s2) u = .next v ∧
      t.x = v.x) ∧
    (∃ t u v, exec (.decs s1 s2) s = .next t ∧ exec (.decs (m + 1) s2) s = .next u ∧ exec (.decs s1 m) u = .next v ∧
      t.x = v.x)) ∧
  (∀ (s : State) (k : Nat), 1 ≤ k → k ≤ 7 → s.ksv = true →
    (∃ t u v, exec (.encs k k) s = .next t ∧ exec (.encr (3 * k - 2) (3 * k)) s = .next u ∧ exec .lfwd u = .next v ∧
      t.x = v.x) ∧
    (∃ t u v, exec (.decs k k) s = .next t ∧ exec .linv s = .next u ∧ exec (.decr (3 * k - 2) (3 * k)) u = .next v ∧
      t.x = v.x))

/-- FINAL_L plays no part except in step ranges that end at step 8 (rules R31, R122): every other command does the same to
every register under either value. -/
def Obligations.FinalLMattersOnlyAtStepEight : Prop :=
  ∀ (i : Instr) (s t : State) (f : Bool), i.isCommand = true → (∀ s1, i ≠ .encs s1 8) → (∀ s1, i ≠ .decs s1 8) →
    i ≠ .trail 8 → exec i s = .next t → exec i { s with finalL := f } = .next { t with finalL := f }

/-- No command reads TRAIL or TRAIL_COUNT (rule R97).  Whatever they hold, a command does the same to everything else; every
command but an accepted TRAIL leaves them as they are; and an accepted TRAIL gives the same TRAIL_COUNT and the same records
below it, and leaves the records from there on as they are.  That a TRAIL which is not acceptable leaves both is the model's
choice (assumption log 2). -/
def Obligations.NoCommandReadsTheTrail : Prop :=
  ∀ (i : Instr) (s t : State) (trail : Vector TrailRecord 32) (count : Word), i.isCommand = true →
    exec i s = .next t →
    ∃ t', exec i { s with trail := trail, trailCount := count } = .next t' ∧
      t' = { t with trail := t'.trail, trailCount := t'.trailCount } ∧
      (((∃ n, i = .trail n) → i.wellFormed = false ∨ s.ksv = false) → t'.trail = trail ∧ t'.trailCount = count) ∧
      ((∃ n, i = .trail n) → i.wellFormed = true → s.ksv = true → t'.trailCount = t.trailCount ∧
        ∀ m : Fin 32, t'.trail[m] = if m.val < t.trailCount.toNat then t.trail[m] else trail[m])

/-- KREG has no effect on later behaviour (rule R20): whatever it holds, a step does the same to everything else. -/
def Obligations.NothingReadsKreg : Prop :=
  ∀ (s t : State) (k : KeyWords), step s = .next t →
    ∃ t', step { s with kreg := k } = .next t' ∧ t' = { t with kreg := t'.kreg }

/-- Byte-encoded keys and states (rule R40) and the wider views (rule R41). -/
def Obligations.ByteOrderIsBigEndian : Prop :=
  (∀ (k : Vector Byte 16) (i : Fin 8),
    ((keyOfBytes k).get i).toNat = 256 * k[2 * i.val].toNat + k[2 * i.val + 1].toNat) ∧
  (∀ (p : Vector Byte 8) (i : Fin 4),
    ((blockOfBytes p).get i).toNat = 256 * p[2 * i.val].toNat + p[2 * i.val + 1].toNat) ∧
  (∀ x : Block, x.bits.toNat = 2 ^ 48 * x.w0.toNat + 2 ^ 32 * x.w1.toNat + 2 ^ 16 * x.w2.toNat + x.w3.toNat ∧
    ∀ b, (x.branch32 b).toNat = 2 ^ 16 * (x.branch b).1.toNat + (x.branch b).2.toNat) ∧
  (∀ k : KeyWords, k.bits.toNat = 2 ^ 112 * k.k0.toNat + 2 ^ 96 * k.k1.toNat + 2 ^ 80 * k.k2.toNat + 2 ^ 64 * k.k3.toNat +
    2 ^ 48 * k.k4.toNat + 2 ^ 32 * k.k5.toNat + 2 ^ 16 * k.k6.toNat + k.k7.toNat) ∧
  (∀ (x : Block) (i : Fin 4), x.bytes[2 * i.val] = (x.get i).extractLsb 15 8 ∧
    x.bytes[2 * i.val + 1] = (x.get i).extractLsb 7 0) ∧
  (∀ k : KeyWords, keyOfBytes k.bytes = k) ∧ (∀ x : Block, blockOfBytes x.bytes = x)

/-! ### The machine's steps -/

/-- On the engine's turn a step runs the command in PENDING; on the host's turn it runs the transaction at the head of the
program.  Around it the turn is used up, and the transaction is taken off the program.  Turns and program are the model's own
(assumption log 3 and 4). -/
def Obligations.StepRunsTheFetchedInstruction : Prop :=
  (∀ (s : State) (w : Word) (i : Instr), s.mover = .engine → s.pending = some w → decode (.command w) = some i →
    step s = exec i { s with schedule := s.schedule.tail }) ∧
  (∀ (s : State) (t : BusOp) (i : Instr) (rest : List HostOp), s.mover = .host → s.program = .bus t :: rest →
    decode (.bus t) = some i →
    step s = exec i { s with schedule := s.schedule.tail, program := rest })

/-- `poll ADDR, MASK, VALUE` (rule R60): its step is the read of ADDR; it is over when (value AND MASK) = VALUE and stands
to be repeated otherwise.  One read for each turn is the model's choice (assumption log 16). -/
def Obligations.PollRepeatsItsRead : Prop :=
  ∀ (s : State) (a : Addr) (mask value : Word) (rest : List HostOp), s.mover = .host →
    s.program = .poll a mask value :: rest →
    ∃ t, exec (.regrd a) { s with schedule := s.schedule.tail } = .next t ∧
      step s = .next (if t.rdata &&& mask = value then { t with program := rest } else t)

/-- An idle engine and an idle host do nothing (rules R35, R113): all state is retained.  Turns are the model's own
(assumption log 3). -/
def Obligations.IdleAgentsChangeNothing : Prop :=
  ∀ s : State, (s.mover = .engine ∧ s.pending = none) ∨ (s.mover = .host ∧ s.program = []) →
    step s = .next { s with schedule := s.schedule.tail }

/-- Reset (rules R114, R115), whatever was pending: the command is abandoned, none of its writes takes effect, every
register has its reset value, and what stands outside the engine stays, the model's count of free values with it (its
choice, assumption log 10).  The values of SK, KREG and TRAIL are not stated:
the spec gives UNSPEC, and reads of SK and TRAIL return free values (assumption log 5, 7 and 10). -/
def Obligations.ResetStep : Prop :=
  ∀ s : State, s.mover = .reset → ∃ t, step s = .next t ∧
    (∀ i, t.key.get i = 0) ∧ (∀ i, t.x.get i = 0) ∧ (∀ i, t.y.get i = 0) ∧ t.trailCount = 0 ∧ t.cmd = 0 ∧
    t.pending = none ∧ t.busy = false ∧ t.done = false ∧ t.err = false ∧ t.ksv = false ∧ t.bwe = false ∧
    t.ecode = .none ∧ t.finalL = false ∧
    (∀ g i, readsUnspec t (skAddr g i)) ∧ (∀ n w, readsUnspec t (trailAddr n w)) ∧
    t.rdata = s.rdata ∧ t.program = s.program ∧ t.schedule = s.schedule.tail ∧ t.unspecDrawn = s.unspecDrawn

/-- Reads right after reset (rule R116); UNSPEC reads draw free values (assumption log 5). -/
def Obligations.ReadsRightAfterReset : Prop :=
  ∀ s : State, s.mover = .reset → ∃ t, step s = .next t ∧ ∀ a : Addr,
    (a.toNat ≤ 0x013 → readsExactly t a 0x0000) ∧
    (a = 0x014 → readsExactly t a 0x0823) ∧
    (0x100 ≤ a.toNat ∧ a.toNat ≤ 0x165 → readsUnspec t a) ∧
    (0x200 ≤ a.toNat ∧ a.toNat ≤ 0x2FF → readsUnspec t a) ∧
    (reservedAddr a → readsExactly t a 0x0000)

/-- STATUS.BUSY (rule R24): set when a command word is accepted, cleared when the engine completes it, never set by a
rejected word; nothing else changes it but reset. -/
def Obligations.BusyChangesOnlyByItsEvents : Prop :=
  ∀ s t : State, step s = .next t →
    (∀ v, hostWrites s 0x010 v → s.busy = false → (t.busy = true ↔ check v s.ksv = .none)) ∧
    (∀ i, engineRuns s i → t.busy = false) ∧
    (t.busy ≠ s.busy → s.mover = .reset ∨ (∃ i, engineRuns s i) ∨
      (s.busy = false ∧ ∃ v, hostWrites s 0x010 v ∧ check v s.ksv = .none))

/-- STATUS.DONE (rule R25): set when an accepted command completes, cleared by the next command word written while
BUSY = 0, accepted or rejected; nothing else changes it but reset. -/
def Obligations.DoneChangesOnlyByItsEvents : Prop :=
  ∀ s t : State, Inv s → step s = .next t →
    (∀ i, engineRuns s i → t.done = true) ∧
    (∀ v, hostWrites s 0x010 v → s.busy = false → t.done = false) ∧
    (t.done ≠ s.done → s.mover = .reset ∨ (∃ i, engineRuns s i) ∨ (s.busy = false ∧ ∃ v, hostWrites s 0x010 v))

/-- STATUS.ERR and ECODE (rules R26, R29): a command word written while BUSY = 0 sets them to its check's outcome, reset
clears them, and no other event changes them. -/
def Obligations.ErrorChangesOnlyOnCommandWords : Prop :=
  (∀ s t : State, Inv s → step s = .next t →
    (∀ v, hostWrites s 0x010 v → s.busy = false →
      t.ecode = check v s.ksv ∧ (t.err = true ↔ check v s.ksv ≠ .none)) ∧
    (s.mover = .reset → t.err = false ∧ t.ecode = .none) ∧
    (t.err ≠ s.err ∨ t.ecode ≠ s.ecode →
      s.mover = .reset ∨ (s.busy = false ∧ ∃ v, hostWrites s 0x010 v))) ∧
  (ECode.none.bits = 0 ∧ ECode.illop.bits = 1 ∧ ECode.rsv.bits = 2 ∧ ECode.range.bits = 3 ∧ ECode.nokey.bits = 4 ∧
    ∀ e : ECode, e.bits.toNat < 5)

/-- STATUS.KSV (rule R27): set exactly when a KSCHED completes, cleared exactly at reset, by an accepted KEY write and when
a KSCHED is accepted; while it is 0, commands that use SK are rejected with ENOKEY. -/
def Obligations.KsvChangesOnlyByItsEvents : Prop :=
  ∀ s t : State, step s = .next t →
    (engineRuns s .ksched → t.ksv = true) ∧
    (s.mover = .reset → t.ksv = false) ∧
    (∀ (i : Fin 8) (v : Word), hostWrites s (keyAddr i) v → s.busy = false → t.ksv = false) ∧
    (hostWrites s 0x010 0x1000 → s.busy = false → t.ksv = false) ∧
    (t.ksv = true → s.ksv = false → engineRuns s .ksched) ∧
    (t.ksv = false → s.ksv = true → s.mover = .reset ∨
      (s.busy = false ∧ ((∃ (i : Fin 8) (v : Word), hostWrites s (keyAddr i) v) ∨ hostWrites s 0x010 0x1000))) ∧
    (∀ (v : Word) (i : Instr), hostWrites s 0x010 v → s.busy = false → s.ksv = false →
      decode (.command v) = some i → i.wellFormed = true → i.usesKey = true →
      t.err = true ∧ t.ecode = .nokey ∧ t.busy = false)

/-- STATUS.BWE (rules R28, R104): it changes only by a busy write (to 1), by a write to STATUS with bit 4 = 1 (to 0) and by
reset (to 0). -/
def Obligations.BweChangesOnlyByItsEvents : Prop :=
  ∀ s t : State, step s = .next t →
    (t.bwe = true → s.bwe = false → s.busy = true ∧ ∃ a v, hostWrites s a v ∧ busyGuarded a) ∧
    (t.bwe = false → s.bwe = true → s.mover = .reset ∨ ∃ v : Word, hostWrites s 0x011 v ∧ v.getLsbD 4 = true)

/-- Who writes the data registers and tables (rules R15 to R22, R31, R32, R50): KEY and FINAL_L only the host, CMD only a
host write, SK only KSCHED, TRAIL and TRAIL_COUNT only TRAIL, Y only the host and TRAIL, X the host and every command but
KSCHED; and reset. -/
def Obligations.RegistersChangeOnlyByTheirWriters : Prop :=
  ∀ s t : State, step s = .next t → s.mover ≠ .reset →
    (t.key ≠ s.key → s.busy = false ∧ ∃ (i : Fin 8) (v : Word), hostWrites s (keyAddr i) v) ∧
    (t.x ≠ s.x → (s.busy = false ∧ ∃ (i : Fin 4) (v : Word), hostWrites s (xAddr i) v) ∨
      ∃ i, engineRuns s i ∧ i ≠ .ksched) ∧
    (t.y ≠ s.y → (s.busy = false ∧ ∃ (i : Fin 4) (v : Word), hostWrites s (yAddr i) v) ∨
      ∃ n, engineRuns s (.trail n)) ∧
    (t.finalL ≠ s.finalL → s.busy = false ∧ ∃ v, hostWrites s 0x012 v) ∧
    (t.cmd ≠ s.cmd → s.busy = false ∧ ∃ v, hostWrites s 0x010 v) ∧
    (t.sk ≠ s.sk → engineRuns s .ksched) ∧
    (t.trail ≠ s.trail ∨ t.trailCount ≠ s.trailCount → ∃ n, engineRuns s (.trail n))

/-- While a command is in flight no host access can change what it works on or what it is (rules R51, R101): on the host's
turn everything but BWE and what the host holds stays. -/
def Obligations.HostCannotDisturbACommandInFlight : Prop :=
  ∀ s t : State, s.busy = true → s.mover = .host → step s = .next t →
    t = { s with bwe := t.bwe, rdata := t.rdata, unspecDrawn := t.unspecDrawn, program := t.program,
                 schedule := t.schedule }

/-- Both orders of a host write and the completion it races with are runs of the machine (rule R102): under one schedule
the write meets BUSY = 1 and is dropped, under the other the completion comes first and the write is made.  The order of moves
as plain data is the model's choice (assumption log 3). -/
def Obligations.BothOrdersOfARace : Prop :=
  ∀ (s : State) (w : Word) (i : Instr) (a : Addr) (v : Word) (rest : List HostOp) (later : List Agent),
    s.pending = some w → decode (.command w) = some i → s.program = .bus (.write a v) :: rest → busyGuarded a →
    (∃ t, step { s with schedule := .host :: .engine :: later } =
        .next { s with bwe := true, program := rest, schedule := .engine :: later } ∧
      step { s with bwe := true, program := rest, schedule := .engine :: later } = .next t ∧ t.busy = false) ∧
    (∃ t u, step { s with schedule := .engine :: .host :: later } = .next t ∧ t.busy = false ∧ t.bwe = s.bwe ∧
      t.program = s.program ∧ t.schedule = .host :: later ∧ step t = .next u ∧ u.bwe = s.bwe ∧
      exec (.regwr a v) { t with program := rest, schedule := later } = .next u)

/-! ### Invariants, progress, liveness -/

/-- The control invariant holds after reset. -/
def Obligations.ControlInvariantAtReset : Prop := Inv State.reset

/-- Every step keeps the control invariant: BUSY = 1 only for an accepted command, ERR = 1 exactly when ECODE names an
error, DONE and ERR not both, KSV = 1 only while SK holds the schedule of the current KEY, TRAIL_COUNT at most 32. -/
def Obligations.StepKeepsControlInvariant : Prop :=
  ∀ s t : State, Inv s → step s = .next t → Inv t

/-- Every step keeps the trail buffer's valid records in the form of rule R21. -/
def Obligations.StepKeepsTrailRecords : Prop :=
  TrailInv State.reset ∧ ∀ s t : State, TrailInv s → step s = .next t → TrailInv t

/-- The engine takes no trap and has no abort (rules R103, R107): from a state that meets the invariant no step of any run
stops. -/
def Obligations.NoRunStops : Prop := ∀ s : State, Inv s → NeverStops s

/-- "A command, once accepted, always completes unless reset intervenes" (rule R127), with the model's fairness (assumption
log 3): within one step more than the schedule names, BUSY is 0. -/
def Obligations.AcceptedCommandCompletes : Prop :=
  ∀ s : State, Inv s → s.busy = true → .reset ∉ s.schedule →
    ∃ k t, 1 ≤ k ∧ k ≤ s.schedule.length + 1 ∧ StepsTo k s t ∧ t.busy = false ∧ t.done = true

/-- Changing the key (rule R118): a KEY write while idle makes KSV 0 and leaves SK as it was, so the
window still reads the old schedule; the KSCHED word then submitted makes the window read UNSPEC, and its completion makes
it read the schedule of the new KEY.  The free values and the flag `skWritten` are the model's (assumption log 5 and 7). -/
def Obligations.ChangingTheKey : Prop :=
  ∀ (s : State) (i : Fin 8) (v : Word) (g : Fin 17) (j : Fin 6), s.busy = false → s.skWritten = true →
    ∃ t u w, exec (.regwr (keyAddr i) v) s = .next t ∧ t.ksv = false ∧
      readsExactly t (skAddr g j) (s.sk[g].get j) ∧
      exec (.regwr 0x010 0x1000) t = .next u ∧ u.busy = true ∧ readsUnspec u (skAddr g j) ∧
      exec .ksched u = .next w ∧ w.ksv = true ∧
      readsExactly w (skAddr g j) ((scheduleOf t.key)[g].get j)
end

