-- ==== Sys2Proof/Laws/Words.lean ====
section
/-! SUPPORT. Rotations, the word and branch accessors, and the address map: one lemma for what each can do. -/

namespace Sys2Proof.Machine

/-- Bit i of a rotated word is bit i − n, counted circularly (rule R13). -/
theorem getLsbD_rotl (v : Word) {n i : Nat} (hn : n < 16) (hi : i < 16) :
    (rotl v n).getLsbD i = v.getLsbD (if i < n then i + 16 - n else i - n) := by
  unfold rotl
  split
  · subst_vars; simp
  · by_cases h : i < n
    · simp [hi, h, show 16 - n + i = i + 16 - n by omega]
    · simp only [BitVec.getLsbD_or, BitVec.getLsbD_shiftLeft, BitVec.getLsbD_ushiftRight, hi, h]
      rw [BitVec.getLsbD_of_ge v (16 - n + i) (by omega)]
      simp

/-- Rotations by amounts that make a full turn undo each other. -/
theorem rotl_rotl_of_add (v : Word) {m n : Nat} (hm : m < 16) (hn : n < 16) (h : (m + n) % 16 = 0) :
    rotl (rotl v m) n = v := by
  apply BitVec.eq_of_getLsbD_eq
  intro i hi
  rw [getLsbD_rotl _ hn hi, getLsbD_rotl _ hm (by split <;> omega)]
  congr 1
  repeat' split
  all_goals omega

/-- A rotation right is undone by the rotation left. -/
@[simp] theorem rotl_rotr (v : Word) {n : Nat} (hn : n < 16) : rotl (rotr v n) n = v :=
  rotl_rotl_of_add v (Nat.mod_lt _ (by decide)) hn (by omega)

/-- A rotation left is undone by the rotation right. -/
@[simp] theorem rotr_rotl (v : Word) {n : Nat} (hn : n < 16) : rotr (rotl v n) n = v :=
  rotl_rotl_of_add v hn (Nat.mod_lt _ (by decide)) (by omega)

/-- Rotation distributes over exclusive or. -/
theorem rotl_xor (v w : Word) (n : Nat) : rotl (v ^^^ w) n = rotl v n ^^^ rotl w n := by
  unfold rotl
  split
  · rfl
  · ext i hi
    simp only [BitVec.getElem_or, BitVec.getElem_xor, BitVec.getElem_shiftLeft, BitVec.getElem_ushiftRight,
      BitVec.getLsbD_xor]
    by_cases h : i < n
    · simp [h]
    · simp [h, BitVec.getLsbD_of_ge _ (16 - n + i) (show 16 ≤ 16 - n + i by omega)]

@[simp] theorem xorPair_xorPair (p q : Word × Word) : xorPair (xorPair p q) q = p := by
  simp [xorPair]

@[simp] theorem Block.branch_setBranch (x : Block) (b : Branch) (p : Word × Word) : (x.setBranch b p).branch b = p := by
  cases b <;> rfl

theorem Block.branch_setBranch_ne (x : Block) {b b' : Branch} (p : Word × Word) (h : b' ≠ b) :
    (x.setBranch b p).branch b' = x.branch b' := by
  cases b <;> cases b' <;> first | rfl | exact absurd rfl h

@[simp] theorem Block.setBranch_setBranch (x : Block) (b : Branch) (p q : Word × Word) :
    (x.setBranch b p).setBranch b q = x.setBranch b q := by
  cases b <;> rfl

@[simp] theorem Block.setBranch_branch (x : Block) (b : Branch) : x.setBranch b (x.branch b) = x := by
  cases b <;> rfl

theorem Block.setBranch_comm (x : Block) {b b' : Branch} (p q : Word × Word) (h : b ≠ b') :
    (x.setBranch b p).setBranch b' q = (x.setBranch b' q).setBranch b p := by
  cases b <;> cases b' <;> first | rfl | exact absurd rfl h

/-- Two blocks with the same branches are the same. -/
theorem Block.ext_branch {x y : Block} (h : ∀ b, x.branch b = y.branch b) : x = y := by
  have h0 := h .b0
  have h1 := h .b1
  cases x; cases y
  simp_all [Block.branch]

theorem Block.get_set (x : Block) (i j : Fin 4) (v : Word) : (x.set i v).get j = if j = i then v else x.get j := by
  fin_cases i <;> fin_cases j <;> rfl

theorem KeyWords.get_set (k : KeyWords) (i j : Fin 8) (v : Word) :
    (k.set i v).get j = if j = i then v else k.get j := by
  fin_cases i <;> fin_cases j <;> rfl

@[simp] theorem Block.set_set (x : Block) (i : Fin 4) (v w : Word) : (x.set i v).set i w = x.set i w := by
  fin_cases i <;> rfl

@[simp] theorem KeyWords.set_set (k : KeyWords) (i : Fin 8) (v w : Word) : (k.set i v).set i w = k.set i w := by
  fin_cases i <;> rfl

/-- An encryption round changes its own branch alone, and there applies A after the subkeys (rule R76). -/
theorem branch_encRound (sk : Vector SubkeyGroup 17) (b b' : Branch) (x : Block) (r : Nat) :
    (encRound sk b x r).branch b' =
      if b' = b then roundA (xorPair (x.branch b) (subkeyPair sk b r)) else x.branch b' := by
  unfold encRound
  split
  · subst_vars; simp
  · exact Block.branch_setBranch_ne _ _ ‹_›

/-- A decryption round changes its own branch alone, and there takes the subkeys off after A_inverse (rule R77). -/
theorem branch_decRound (sk : Vector SubkeyGroup 17) (b b' : Branch) (x : Block) (r : Nat) :
    (decRound sk b x r).branch b' =
      if b' = b then xorPair (roundAInv (x.branch b)) (subkeyPair sk b r) else x.branch b' := by
  unfold decRound
  split
  · subst_vars; simp
  · exact Block.branch_setBranch_ne _ _ ‹_›

/-- `for i = a to b` and one number more. -/
theorem countUp_succ (a b : Nat) (h : a ≤ b + 1) : countUp a (b + 1) = countUp a b ++ [b + 1] := by
  unfold countUp
  rw [show b + 1 + 1 - a = (b + 1 - a) + 1 by omega, List.range'_concat]
  simp only [Nat.one_mul]
  rw [show a + (b + 1 - a) = b + 1 by omega]

/-- A loop over a to b is the loop over a to m and then the loop over m + 1 to b. -/
theorem countUp_append {a m b : Nat} (h1 : a ≤ m + 1) (h2 : m ≤ b) : countUp a b = countUp a m ++ countUp (m + 1) b := by
  unfold countUp
  rw [show b + 1 - a = (m + 1 - a) + (b + 1 - (m + 1)) by omega, ← List.range'_append_1]
  congr 2
  omega

theorem mem_countUp {a b i : Nat} : i ∈ countUp a b ↔ a ≤ i ∧ i ≤ b := by
  unfold countUp
  rw [List.mem_range'_1]
  omega

/-! ### The address map: each register is where rule R38 puts it -/

@[simp] theorem registerAt_keyAddr (i : Fin 8) : registerAt (keyAddr i) = .key i := by revert i; decide
@[simp] theorem registerAt_xAddr (i : Fin 4) : registerAt (xAddr i) = .x i := by revert i; decide
@[simp] theorem registerAt_yAddr (i : Fin 4) : registerAt (yAddr i) = .y i := by revert i; decide
@[simp] theorem registerAt_cmd : registerAt 0x010#10 = .cmd := by decide
@[simp] theorem registerAt_status : registerAt 0x011#10 = .status := by decide
@[simp] theorem registerAt_ctrl : registerAt 0x012#10 = .ctrl := by decide
@[simp] theorem registerAt_trailCount : registerAt 0x013#10 = .trailCount := by decide
@[simp] theorem registerAt_config : registerAt 0x014#10 = .config := by decide

@[simp] theorem registerAt_skAddr (g : Fin 17) (i : Fin 6) : registerAt (skAddr g i) = .sk g i := by
  revert g i; decide +kernel
@[simp] theorem registerAt_trailAddr (n : Fin 32) (w : Fin 8) : registerAt (trailAddr n w) = .trail n w := by
  revert n w; decide +kernel

/-- The map read the other way: what an address names says where it lies. -/
theorem registerAt_spec (a : Addr) :
    match registerAt a with
    | .key i => a = keyAddr i
    | .x i => a = xAddr i
    | .y i => a = yAddr i
    | .cmd => a = 0x010
    | .status => a = 0x011
    | .ctrl => a = 0x012
    | .trailCount => a = 0x013
    | .config => a = 0x014
    | .sk g i => a = skAddr g i
    | .trail n w => a = trailAddr n w
    | .reserved => (0x015 ≤ a.toNat ∧ a.toNat ≤ 0x0FF) ∨ (0x166 ≤ a.toNat ∧ a.toNat ≤ 0x1FF) ∨ 0x300 ≤ a.toNat := by
  have hlt := a.isLt
  by_cases h0 : a.toNat < 0x008
  · rw [show registerAt a = .key ⟨a.toNat, h0⟩ by rw [registerAt, dif_pos h0]]
    exact BitVec.eq_of_toNat_eq (by simp only [keyAddr, BitVec.toNat_ofNat]; omega)
  by_cases h1 : a.toNat < 0x00C
  · rw [show registerAt a = .x ⟨a.toNat - 0x008, by omega⟩ by rw [registerAt, dif_neg h0, dif_pos h1]]
    exact BitVec.eq_of_toNat_eq (by simp only [xAddr, BitVec.toNat_ofNat]; omega)
  by_cases h2 : a.toNat < 0x010
  · rw [show registerAt a = .y ⟨a.toNat - 0x00C, by omega⟩ by rw [registerAt, dif_neg h0, dif_neg h1, dif_pos h2]]
    exact BitVec.eq_of_toNat_eq (by simp only [yAddr, BitVec.toNat_ofNat]; omega)
  by_cases h3 : a.toNat = 0x010
  · rw [show registerAt a = .cmd by rw [registerAt, dif_neg h0, dif_neg h1, dif_neg h2, if_pos h3]]
    exact BitVec.eq_of_toNat_eq h3
  by_cases h4 : a.toNat = 0x011
  · rw [show registerAt a = .status by rw [registerAt, dif_neg h0, dif_neg h1, dif_neg h2, if_neg h3, if_pos h4]]
    exact BitVec.eq_of_toNat_eq h4
  by_cases h5 : a.toNat = 0x012
  · rw [show registerAt a = .ctrl by rw [registerAt, dif_neg h0, dif_neg h1, dif_neg h2, if_neg h3, if_neg h4, if_pos h5]]
    exact BitVec.eq_of_toNat_eq h5
  by_cases h6 : a.toNat = 0x013
  · rw [show registerAt a = .trailCount by rw [registerAt, dif_neg h0, dif_neg h1, dif_neg h2, if_neg h3, if_neg h4, if_neg h5, if_pos h6]]
    exact BitVec.eq_of_toNat_eq h6
  by_cases h7 : a.toNat = 0x014
  · rw [show registerAt a = .config by rw [registerAt, dif_neg h0, dif_neg h1, dif_neg h2, if_neg h3, if_neg h4, if_neg h5, if_neg h6, if_pos h7]]
    exact BitVec.eq_of_toNat_eq h7
  by_cases h8 : 0x100 ≤ a.toNat ∧ a.toNat ≤ 0x165
  · rw [show registerAt a = .sk ⟨(a.toNat - 0x100) / 6, by omega⟩ ⟨(a.toNat - 0x100) % 6, by omega⟩ by rw [registerAt, dif_neg h0, dif_neg h1, dif_neg h2, if_neg h3, if_neg h4, if_neg h5, if_neg h6, if_neg h7, dif_pos h8]]
    exact BitVec.eq_of_toNat_eq (by simp only [skAddr, BitVec.toNat_ofNat]; omega)
  by_cases h9 : 0x200 ≤ a.toNat ∧ a.toNat ≤ 0x2FF
  · rw [show registerAt a = .trail ⟨(a.toNat - 0x200) / 8, by omega⟩ ⟨(a.toNat - 0x200) % 8, by omega⟩ by rw [registerAt, dif_neg h0, dif_neg h1, dif_neg h2, if_neg h3, if_neg h4, if_neg h5, if_neg h6, if_neg h7, dif_neg h8, dif_pos h9]]
    exact BitVec.eq_of_toNat_eq (by simp only [trailAddr, BitVec.toNat_ofNat]; omega)
  rw [show registerAt a = .reserved by
    rw [registerAt, dif_neg h0, dif_neg h1, dif_neg h2, if_neg h3, if_neg h4, if_neg h5, if_neg h6, if_neg h7, dif_neg h8, dif_neg h9]]
  show _ ∨ _ ∨ _
  omega

theorem registerAt_key {a : Addr} (i : Fin 8) (h : a.toNat = i.val) : registerAt a = .key i := by
  rw [show a = keyAddr i from BitVec.eq_of_toNat_eq (by simp [keyAddr]; omega)]; simp

theorem registerAt_x {a : Addr} (i : Fin 4) (h : a.toNat = 0x008 + i.val) : registerAt a = .x i := by
  rw [show a = xAddr i from BitVec.eq_of_toNat_eq (by simp [xAddr]; omega)]; simp

theorem registerAt_y {a : Addr} (i : Fin 4) (h : a.toNat = 0x00C + i.val) : registerAt a = .y i := by
  rw [show a = yAddr i from BitVec.eq_of_toNat_eq (by simp [yAddr]; omega)]; simp

theorem registerAt_sk {a : Addr} (g : Fin 17) (i : Fin 6) (h : a.toNat = 0x100 + 6 * g.val + i.val) :
    registerAt a = .sk g i := by
  rw [show a = skAddr g i from BitVec.eq_of_toNat_eq (by simp [skAddr]; omega)]; simp

theorem registerAt_trail {a : Addr} (n : Fin 32) (w : Fin 8) (h : a.toNat = 0x200 + 8 * n.val + w.val) :
    registerAt a = .trail n w := by
  rw [show a = trailAddr n w from BitVec.eq_of_toNat_eq (by simp [trailAddr]; omega)]; simp

theorem registerAt_reserved {a : Addr}
    (h : (0x015 ≤ a.toNat ∧ a.toNat ≤ 0x0FF) ∨ (0x166 ≤ a.toNat ∧ a.toNat ≤ 0x1FF) ∨ 0x300 ≤ a.toNat) :
    registerAt a = .reserved := by
  unfold registerAt
  rw [dif_neg (by omega), dif_neg (by omega), dif_neg (by omega), if_neg (by omega), if_neg (by omega),
    if_neg (by omega), if_neg (by omega), if_neg (by omega), dif_neg (by omega), dif_neg (by omega)]

end Sys2Proof.Machine
end

