-- ==== Sys2Proof/Laws/Cipher.lean ====
section
/-! SUPPORT. The loops of the commands, one turn at a time: what a run of rounds does to each branch, what one step is, and
what one round and one record of a trail are. -/

namespace Sys2Proof.Machine

/-- A run of encryption rounds on branch b changes that branch alone. -/
theorem branch_foldl_encRound (sk : Vector SubkeyGroup 17) (b b' : Branch) (rounds : List Nat) (x : Block) :
    (rounds.foldl (encRound sk b) x).branch b' =
      if b' = b then rounds.foldl (fun p r => roundA (xorPair p (subkeyPair sk b r))) (x.branch b) else x.branch b' := by
  induction rounds generalizing x with
  | nil => simp only [List.foldl_nil]; split <;> simp_all
  | cons r rounds ih => simp only [List.foldl_cons, ih, branch_encRound]; split <;> simp_all

/-- A run of decryption rounds on branch b changes that branch alone. -/
theorem branch_foldl_decRound (sk : Vector SubkeyGroup 17) (b b' : Branch) (rounds : List Nat) (x : Block) :
    (rounds.foldl (decRound sk b) x).branch b' =
      if b' = b then rounds.foldl (fun p r => xorPair (roundAInv p) (subkeyPair sk b r)) (x.branch b)
      else x.branch b' := by
  induction rounds generalizing x with
  | nil => simp only [List.foldl_nil]; split <;> simp_all
  | cons r rounds ih => simp only [List.foldl_cons, ih, branch_decRound]; split <;> simp_all

/-- A step of ENCS is the rounds of ENCR for that step, then L where LAFTER(s). -/
theorem encryptStep_eq (sk : Vector SubkeyGroup 17) (finalL : Bool) (x : Block) (s : Nat) :
    encryptStep sk finalL x s =
      if layerAfter finalL s then layer (encryptRounds sk (3 * s - 2) (3 * s) x)
      else encryptRounds sk (3 * s - 2) (3 * s) x := rfl

/-- A step of DECS is L_inverse where LAFTER(s), then the rounds of DECR for that step. -/
theorem decryptStep_eq (sk : Vector SubkeyGroup 17) (finalL : Bool) (x : Block) (s : Nat) :
    decryptStep sk finalL x s =
      decryptRounds sk (3 * s - 2) (3 * s) (if layerAfter finalL s then layerInv x else x) := rfl

/-- LAFTER as a condition. -/
theorem layerAfter_iff (finalL : Bool) (s : Nat) : layerAfter finalL s = true ↔ s ≠ 8 ∨ finalL = true := by
  simp [layerAfter]

/-- One turn of KSCHED's loop (rule R81). -/
theorem expandGroup_eq (e : KeyExpansion) (g : Nat) :
    expandGroup e g = ⟨kperm e.kreg (BitVec.ofNat 16 (g + 1)), e.sk.setIfInBounds g e.kreg.firstSix⟩ := rfl

/-- Making a record (rule R95). -/
theorem TrailRun.emit_eq (t : TrailRun) (kind s r : Nat) :
    t.emit kind s r =
      { t with
        n := t.n + 1
        trail := t.trail.setIfInBounds t.n
          ⟨BitVec.ofNat 16 kind, BitVec.ofNat 16 s, BitVec.ofNat 16 r, t.x.w0 ^^^ t.y.w0, t.x.w1 ^^^ t.y.w1,
            t.x.w2 ^^^ t.y.w2, t.x.w3 ^^^ t.y.w3, 0x0000⟩ } := rfl

/-- One round of a trail (rule R95). -/
theorem TrailRun.round_eq (sk : Vector SubkeyGroup 17) (s : Nat) (t : TrailRun) (r : Nat) :
    t.round sk s r =
      TrailRun.emit
        { t with
          x := encRound sk .b1 (encRound sk .b0 t.x r) r
          y := encRound sk .b1 (encRound sk .b0 t.y r) r } 1 s r := rfl

/-- What a buffer holds after one record is written. -/
theorem trail_set_get (trail : Vector TrailRecord 32) (n : Nat) (record : TrailRecord) (m : Fin 32) :
    (trail.setIfInBounds n record)[m] = if m.val = n then record else trail[m] := by
  simp only [Fin.getElem_fin]
  rw [Vector.getElem_setIfInBounds (hj := m.isLt)]
  split <;> split <;> simp_all

end Sys2Proof.Machine
end

