-- ==== Sys2Proof/Laws/Decode.lean ====
section
/-! SUPPORT. The fields of a command word, and the decoder in terms of them. -/

namespace Sys2Proof

open Machine

/-- Two joined pairs are equal when their parts are. -/
theorem append_eq_append {m n : Nat} (a c : BitVec m) (b d : BitVec n) : a ++ b = c ++ d ↔ a = c ∧ b = d := by
  constructor
  · intro h
    have hi := congrArg (fun z => BitVec.extractLsb' n m z) h
    have lo := congrArg (fun z => BitVec.setWidth n z) h
    simp only [BitVec.extractLsb'_append_eq_left, BitVec.setWidth_append] at hi lo
    simp at lo
    exact ⟨hi, lo⟩
  · rintro ⟨rfl, rfl⟩
    rfl

/-- A mask of two parts masks the parts. -/
theorem append_and_append {m n : Nat} (a c : BitVec m) (b d : BitVec n) :
    (a ++ b) &&& (c ++ d) = (a &&& c) ++ (b &&& d) := by
  refine BitVec.eq_of_getLsbD_eq fun i hi => ?_
  simp only [BitVec.getLsbD_and, BitVec.getLsbD_append]
  split <;> simp

/-- A command word is its four fields, most significant first (rule R53). -/
theorem word_eq_fields (w : Word) : w = opField w ++ (rsvField w ++ (fromField w ++ toField w)) := by
  refine BitVec.eq_of_getLsbD_eq (w := 4 + (2 + (5 + 5))) fun i hi => ?_
  simp only [opField, rsvField, fromField, toField, BitVec.getLsbD_append, BitVec.getLsbD_extractLsb]
  have : i < 16 := hi
  interval_cases i <;> simp

/-- Two words with the same fields are the same. -/
theorem word_ext {v w : Word} (h1 : opField v = opField w) (h2 : rsvField v = rsvField w)
    (h3 : fromField v = fromField w) (h4 : toField v = toField w) : v = w := by
  rw [word_eq_fields v, word_eq_fields w, h1, h2, h3, h4]

/-- What a row's mask leaves of a word, field by field. -/
theorem selects_fields (w : Word) (name : Opcode) (p1 m1 : BitVec 4) (p2 m2 : BitVec 2) (p3 m3 p4 m4 : BitVec 5) :
    (OpcodeRow.mk name (p1 ++ (p2 ++ (p3 ++ p4))) (m1 ++ (m2 ++ (m3 ++ m4)))).selects w = true ↔
      opField w &&& m1 = p1 ∧ rsvField w &&& m2 = p2 ∧ fromField w &&& m3 = p3 ∧ toField w &&& m4 = p4 := by
  unfold OpcodeRow.selects
  dsimp only
  conv => lhs; rw [word_eq_fields w]
  have h3 := append_and_append (fromField w) m3 (toField w) m4
  have h2 := (append_and_append (rsvField w) m2 _ _).trans (congrArg ((rsvField w &&& m2) ++ ·) h3)
  have h1 := (append_and_append (opField w) m1 _ _).trans (congrArg ((opField w &&& m1) ++ ·) h2)
  rw [beq_iff_eq]
  refine Iff.trans (Eq.to_iff (congrArg (· = _) h1)) ?_
  refine (append_eq_append _ _ _ _).trans (and_congr_right' ?_)
  refine (append_eq_append _ _ _ _).trans (and_congr_right' ?_)
  exact append_eq_append _ _ _ _

theorem and_ones4 (v : BitVec 4) : v &&& 15#4 = v := by revert v; decide
theorem and_ones2 (v : BitVec 2) : v &&& 3#2 = v := by revert v; decide
theorem and_ones5 (v : BitVec 5) : v &&& 31#5 = v := by revert v; decide

/-- A row with the mask 0xFFFF selects the word of its OP with all else zero (rule R55). -/
theorem selects_exact (op : BitVec 4) (w : Word) (name : Opcode) (p : Word) (hp : p = op ++ (0#2 ++ (0#5 ++ 0#5))) :
    (OpcodeRow.mk name p 0xFFFF).selects w =
      decide (opField w = op ∧ rsvField w = 0 ∧ fromField w = 0 ∧ toField w = 0) := by
  subst hp
  rw [Bool.eq_iff_iff, decide_eq_true_iff]
  have := selects_fields w name op 0xF 0 0x3 0 0x1F 0 0x1F
  simpa [and_ones4, and_ones2, and_ones5] using this

/-- A row with the mask 0xFC00 selects the words of its OP with RSV zero (rule R55). -/
theorem selects_range (op : BitVec 4) (w : Word) (name : Opcode) (p : Word) (hp : p = op ++ (0#2 ++ (0#5 ++ 0#5))) :
    (OpcodeRow.mk name p 0xFC00).selects w = decide (opField w = op ∧ rsvField w = 0) := by
  subst hp
  rw [Bool.eq_iff_iff, decide_eq_true_iff]
  have := selects_fields w name op 0xF 0 0x3 0 0 0 0
  simpa [and_ones4, and_ones2, and_ones5] using this

/-- A row with the mask 0xFFE0 selects the words of its OP with RSV and FROM zero (rule R55). -/
theorem selects_count (op : BitVec 4) (w : Word) (name : Opcode) (p : Word) (hp : p = op ++ (0#2 ++ (0#5 ++ 0#5))) :
    (OpcodeRow.mk name p 0xFFE0).selects w =
      decide (opField w = op ∧ rsvField w = 0 ∧ fromField w = 0) := by
  subst hp
  rw [Bool.eq_iff_iff, decide_eq_true_iff]
  have := selects_fields w name op 0xF 0 0x3 0 0x1F 0 0
  simpa [and_ones4, and_ones2, and_ones5] using this

/-- The decoder by fields: a legal OP, RSV zero and the must-be-zero fields zero (rules R55, R56). -/
theorem decodeCommand_eq (w : Word) :
    decodeCommand w =
      match operationOf (opField w) with
      | none => none
      | some op =>
        if rsvField w != 0 || operandBitsReserved op w then none
        else some (op.instr (fromField w).toNat (toField w).toNat) := by
  have e1 := selects_exact 0x1 w .ksched 0x1000 (by decide)
  have e2 := selects_range 0x2 w .encr 0x2000 (by decide)
  have e3 := selects_range 0x3 w .decr 0x3000 (by decide)
  have e4 := selects_range 0x4 w .encs 0x4000 (by decide)
  have e5 := selects_range 0x5 w .decs 0x5000 (by decide)
  have e6 := selects_exact 0x6 w .lfwd 0x6000 (by decide)
  have e7 := selects_exact 0x7 w .linv 0x7000 (by decide)
  have e8 := selects_count 0x8 w .trail 0x8000 (by decide)
  simp only [decodeCommand, opcodeTable, List.find?, e1, e2, e3, e4, e5, e6, e7, e8]
  generalize opField w = op
  by_cases hr : rsvField w = 0
  · simp only [hr, true_and, bne_self_eq_false, Bool.false_or]
    generalize (fromField w).toNat = lo
    generalize (toField w).toNat = hi
    rcases op with ⟨n, hn⟩
    by_cases hf : fromField w = 0 <;> by_cases ht : toField w = 0 <;>
      simp only [hf, ht, operandBitsReserved, and_true, and_false, decide_false] <;>
      interval_cases n <;> first | rfl | (simp [operationOf]; first | exact ht | exact fun h => absurd h hf)
  · simp only [hr, false_and, and_false, decide_false, Option.map_none]
    cases operationOf op
    · rfl
    · rw [show (rsvField w != 0) = true from bne_iff_ne.mpr hr]; rfl

end Sys2Proof
end

