-- ==== Sys2Proof/Laws/State.lean ====
section
/-! SUPPORT. One lemma for each field of State and each named update of it: what the field is after the update. -/

namespace Sys2Proof.Machine

variable (s : State)

@[simp] theorem State.takeTurn_key : s.takeTurn.key = s.key := rfl
@[simp] theorem State.takeTurn_x : s.takeTurn.x = s.x := rfl
@[simp] theorem State.takeTurn_y : s.takeTurn.y = s.y := rfl
@[simp] theorem State.takeTurn_sk : s.takeTurn.sk = s.sk := rfl
@[simp] theorem State.takeTurn_kreg : s.takeTurn.kreg = s.kreg := rfl
@[simp] theorem State.takeTurn_trail : s.takeTurn.trail = s.trail := rfl
@[simp] theorem State.takeTurn_trailCount : s.takeTurn.trailCount = s.trailCount := rfl
@[simp] theorem State.takeTurn_cmd : s.takeTurn.cmd = s.cmd := rfl
@[simp] theorem State.takeTurn_pending : s.takeTurn.pending = s.pending := rfl
@[simp] theorem State.takeTurn_done : s.takeTurn.done = s.done := rfl
@[simp] theorem State.takeTurn_err : s.takeTurn.err = s.err := rfl
@[simp] theorem State.takeTurn_ksv : s.takeTurn.ksv = s.ksv := rfl
@[simp] theorem State.takeTurn_bwe : s.takeTurn.bwe = s.bwe := rfl
@[simp] theorem State.takeTurn_ecode : s.takeTurn.ecode = s.ecode := rfl
@[simp] theorem State.takeTurn_finalL : s.takeTurn.finalL = s.finalL := rfl
@[simp] theorem State.takeTurn_skWritten : s.takeTurn.skWritten = s.skWritten := rfl
@[simp] theorem State.takeTurn_rdata : s.takeTurn.rdata = s.rdata := rfl
@[simp] theorem State.takeTurn_unspecDrawn : s.takeTurn.unspecDrawn = s.unspecDrawn := rfl
@[simp] theorem State.takeTurn_program : s.takeTurn.program = s.program := rfl
@[simp] theorem State.takeTurn_schedule : s.takeTurn.schedule = s.schedule.tail := rfl
@[simp] theorem State.takeTurn_busy : s.takeTurn.busy = s.busy := rfl

@[simp] theorem State.popProgram_key : s.popProgram.key = s.key := rfl
@[simp] theorem State.popProgram_x : s.popProgram.x = s.x := rfl
@[simp] theorem State.popProgram_y : s.popProgram.y = s.y := rfl
@[simp] theorem State.popProgram_sk : s.popProgram.sk = s.sk := rfl
@[simp] theorem State.popProgram_kreg : s.popProgram.kreg = s.kreg := rfl
@[simp] theorem State.popProgram_trail : s.popProgram.trail = s.trail := rfl
@[simp] theorem State.popProgram_trailCount : s.popProgram.trailCount = s.trailCount := rfl
@[simp] theorem State.popProgram_cmd : s.popProgram.cmd = s.cmd := rfl
@[simp] theorem State.popProgram_pending : s.popProgram.pending = s.pending := rfl
@[simp] theorem State.popProgram_done : s.popProgram.done = s.done := rfl
@[simp] theorem State.popProgram_err : s.popProgram.err = s.err := rfl
@[simp] theorem State.popProgram_ksv : s.popProgram.ksv = s.ksv := rfl
@[simp] theorem State.popProgram_bwe : s.popProgram.bwe = s.bwe := rfl
@[simp] theorem State.popProgram_ecode : s.popProgram.ecode = s.ecode := rfl
@[simp] theorem State.popProgram_finalL : s.popProgram.finalL = s.finalL := rfl
@[simp] theorem State.popProgram_skWritten : s.popProgram.skWritten = s.skWritten := rfl
@[simp] theorem State.popProgram_rdata : s.popProgram.rdata = s.rdata := rfl
@[simp] theorem State.popProgram_unspecDrawn : s.popProgram.unspecDrawn = s.unspecDrawn := rfl
@[simp] theorem State.popProgram_program : s.popProgram.program = s.program.tail := rfl
@[simp] theorem State.popProgram_schedule : s.popProgram.schedule = s.schedule := rfl
@[simp] theorem State.popProgram_busy : s.popProgram.busy = s.busy := rfl

@[simp] theorem State.reject_key (e : ECode) : (s.reject e).key = s.key := rfl
@[simp] theorem State.reject_x (e : ECode) : (s.reject e).x = s.x := rfl
@[simp] theorem State.reject_y (e : ECode) : (s.reject e).y = s.y := rfl
@[simp] theorem State.reject_sk (e : ECode) : (s.reject e).sk = s.sk := rfl
@[simp] theorem State.reject_kreg (e : ECode) : (s.reject e).kreg = s.kreg := rfl
@[simp] theorem State.reject_trail (e : ECode) : (s.reject e).trail = s.trail := rfl
@[simp] theorem State.reject_trailCount (e : ECode) : (s.reject e).trailCount = s.trailCount := rfl
@[simp] theorem State.reject_cmd (e : ECode) : (s.reject e).cmd = s.cmd := rfl
@[simp] theorem State.reject_pending (e : ECode) : (s.reject e).pending = none := rfl
@[simp] theorem State.reject_done (e : ECode) : (s.reject e).done = false := rfl
@[simp] theorem State.reject_err (e : ECode) : (s.reject e).err = true := rfl
@[simp] theorem State.reject_ksv (e : ECode) : (s.reject e).ksv = s.ksv := rfl
@[simp] theorem State.reject_bwe (e : ECode) : (s.reject e).bwe = s.bwe := rfl
@[simp] theorem State.reject_ecode (e : ECode) : (s.reject e).ecode = e := rfl
@[simp] theorem State.reject_finalL (e : ECode) : (s.reject e).finalL = s.finalL := rfl
@[simp] theorem State.reject_skWritten (e : ECode) : (s.reject e).skWritten = s.skWritten := rfl
@[simp] theorem State.reject_rdata (e : ECode) : (s.reject e).rdata = s.rdata := rfl
@[simp] theorem State.reject_unspecDrawn (e : ECode) : (s.reject e).unspecDrawn = s.unspecDrawn := rfl
@[simp] theorem State.reject_program (e : ECode) : (s.reject e).program = s.program := rfl
@[simp] theorem State.reject_schedule (e : ECode) : (s.reject e).schedule = s.schedule := rfl
@[simp] theorem State.reject_busy (e : ECode) : (s.reject e).busy = false := rfl

@[simp] theorem State.complete_key : s.complete.key = s.key := rfl
@[simp] theorem State.complete_x : s.complete.x = s.x := rfl
@[simp] theorem State.complete_y : s.complete.y = s.y := rfl
@[simp] theorem State.complete_sk : s.complete.sk = s.sk := rfl
@[simp] theorem State.complete_kreg : s.complete.kreg = s.kreg := rfl
@[simp] theorem State.complete_trail : s.complete.trail = s.trail := rfl
@[simp] theorem State.complete_trailCount : s.complete.trailCount = s.trailCount := rfl
@[simp] theorem State.complete_cmd : s.complete.cmd = s.cmd := rfl
@[simp] theorem State.complete_pending : s.complete.pending = none := rfl
@[simp] theorem State.complete_done : s.complete.done = true := rfl
@[simp] theorem State.complete_err : s.complete.err = s.err := rfl
@[simp] theorem State.complete_ksv : s.complete.ksv = s.ksv := rfl
@[simp] theorem State.complete_bwe : s.complete.bwe = s.bwe := rfl
@[simp] theorem State.complete_ecode : s.complete.ecode = s.ecode := rfl
@[simp] theorem State.complete_finalL : s.complete.finalL = s.finalL := rfl
@[simp] theorem State.complete_skWritten : s.complete.skWritten = s.skWritten := rfl
@[simp] theorem State.complete_rdata : s.complete.rdata = s.rdata := rfl
@[simp] theorem State.complete_unspecDrawn : s.complete.unspecDrawn = s.unspecDrawn := rfl
@[simp] theorem State.complete_program : s.complete.program = s.program := rfl
@[simp] theorem State.complete_schedule : s.complete.schedule = s.schedule := rfl
@[simp] theorem State.complete_busy : s.complete.busy = false := rfl

@[simp] theorem State.accept_key (v : Word) : (s.accept v).key = s.key := rfl
@[simp] theorem State.accept_x (v : Word) : (s.accept v).x = s.x := rfl
@[simp] theorem State.accept_y (v : Word) : (s.accept v).y = s.y := rfl
@[simp] theorem State.accept_sk (v : Word) : (s.accept v).sk = s.sk := rfl
@[simp] theorem State.accept_kreg (v : Word) : (s.accept v).kreg = s.kreg := rfl
@[simp] theorem State.accept_trail (v : Word) : (s.accept v).trail = s.trail := rfl
@[simp] theorem State.accept_trailCount (v : Word) : (s.accept v).trailCount = s.trailCount := rfl
@[simp] theorem State.accept_cmd (v : Word) : (s.accept v).cmd = s.cmd := rfl
@[simp] theorem State.accept_pending (v : Word) : (s.accept v).pending = some v := rfl
@[simp] theorem State.accept_done (v : Word) : (s.accept v).done = false := rfl
@[simp] theorem State.accept_err (v : Word) : (s.accept v).err = false := rfl
@[simp] theorem State.accept_ksv (v : Word) : (s.accept v).ksv = if opField v = 0x1 then false else s.ksv := rfl
@[simp] theorem State.accept_bwe (v : Word) : (s.accept v).bwe = s.bwe := rfl
@[simp] theorem State.accept_ecode (v : Word) : (s.accept v).ecode = .none := rfl
@[simp] theorem State.accept_finalL (v : Word) : (s.accept v).finalL = s.finalL := rfl
@[simp] theorem State.accept_skWritten (v : Word) : (s.accept v).skWritten = s.skWritten := rfl
@[simp] theorem State.accept_rdata (v : Word) : (s.accept v).rdata = s.rdata := rfl
@[simp] theorem State.accept_unspecDrawn (v : Word) : (s.accept v).unspecDrawn = s.unspecDrawn := rfl
@[simp] theorem State.accept_program (v : Word) : (s.accept v).program = s.program := rfl
@[simp] theorem State.accept_schedule (v : Word) : (s.accept v).schedule = s.schedule := rfl
@[simp] theorem State.accept_busy (v : Word) : (s.accept v).busy = true := rfl

@[simp] theorem State.storeCmd_key (v : Word) : (s.storeCmd v).key = s.key := rfl
@[simp] theorem State.storeCmd_x (v : Word) : (s.storeCmd v).x = s.x := rfl
@[simp] theorem State.storeCmd_y (v : Word) : (s.storeCmd v).y = s.y := rfl
@[simp] theorem State.storeCmd_sk (v : Word) : (s.storeCmd v).sk = s.sk := rfl
@[simp] theorem State.storeCmd_kreg (v : Word) : (s.storeCmd v).kreg = s.kreg := rfl
@[simp] theorem State.storeCmd_trail (v : Word) : (s.storeCmd v).trail = s.trail := rfl
@[simp] theorem State.storeCmd_trailCount (v : Word) : (s.storeCmd v).trailCount = s.trailCount := rfl
@[simp] theorem State.storeCmd_cmd (v : Word) : (s.storeCmd v).cmd = v := rfl
@[simp] theorem State.storeCmd_pending (v : Word) : (s.storeCmd v).pending = s.pending := rfl
@[simp] theorem State.storeCmd_done (v : Word) : (s.storeCmd v).done = s.done := rfl
@[simp] theorem State.storeCmd_err (v : Word) : (s.storeCmd v).err = s.err := rfl
@[simp] theorem State.storeCmd_ksv (v : Word) : (s.storeCmd v).ksv = s.ksv := rfl
@[simp] theorem State.storeCmd_bwe (v : Word) : (s.storeCmd v).bwe = s.bwe := rfl
@[simp] theorem State.storeCmd_ecode (v : Word) : (s.storeCmd v).ecode = s.ecode := rfl
@[simp] theorem State.storeCmd_finalL (v : Word) : (s.storeCmd v).finalL = s.finalL := rfl
@[simp] theorem State.storeCmd_skWritten (v : Word) : (s.storeCmd v).skWritten = s.skWritten := rfl
@[simp] theorem State.storeCmd_rdata (v : Word) : (s.storeCmd v).rdata = s.rdata := rfl
@[simp] theorem State.storeCmd_unspecDrawn (v : Word) : (s.storeCmd v).unspecDrawn = s.unspecDrawn := rfl
@[simp] theorem State.storeCmd_program (v : Word) : (s.storeCmd v).program = s.program := rfl
@[simp] theorem State.storeCmd_schedule (v : Word) : (s.storeCmd v).schedule = s.schedule := rfl
@[simp] theorem State.storeCmd_busy (v : Word) : (s.storeCmd v).busy = s.busy := rfl

@[simp] theorem State.setX_key (x : Block) : (s.setX x).key = s.key := rfl
@[simp] theorem State.setX_x (x : Block) : (s.setX x).x = x := rfl
@[simp] theorem State.setX_y (x : Block) : (s.setX x).y = s.y := rfl
@[simp] theorem State.setX_sk (x : Block) : (s.setX x).sk = s.sk := rfl
@[simp] theorem State.setX_kreg (x : Block) : (s.setX x).kreg = s.kreg := rfl
@[simp] theorem State.setX_trail (x : Block) : (s.setX x).trail = s.trail := rfl
@[simp] theorem State.setX_trailCount (x : Block) : (s.setX x).trailCount = s.trailCount := rfl
@[simp] theorem State.setX_cmd (x : Block) : (s.setX x).cmd = s.cmd := rfl
@[simp] theorem State.setX_pending (x : Block) : (s.setX x).pending = s.pending := rfl
@[simp] theorem State.setX_done (x : Block) : (s.setX x).done = s.done := rfl
@[simp] theorem State.setX_err (x : Block) : (s.setX x).err = s.err := rfl
@[simp] theorem State.setX_ksv (x : Block) : (s.setX x).ksv = s.ksv := rfl
@[simp] theorem State.setX_bwe (x : Block) : (s.setX x).bwe = s.bwe := rfl
@[simp] theorem State.setX_ecode (x : Block) : (s.setX x).ecode = s.ecode := rfl
@[simp] theorem State.setX_finalL (x : Block) : (s.setX x).finalL = s.finalL := rfl
@[simp] theorem State.setX_skWritten (x : Block) : (s.setX x).skWritten = s.skWritten := rfl
@[simp] theorem State.setX_rdata (x : Block) : (s.setX x).rdata = s.rdata := rfl
@[simp] theorem State.setX_unspecDrawn (x : Block) : (s.setX x).unspecDrawn = s.unspecDrawn := rfl
@[simp] theorem State.setX_program (x : Block) : (s.setX x).program = s.program := rfl
@[simp] theorem State.setX_schedule (x : Block) : (s.setX x).schedule = s.schedule := rfl
@[simp] theorem State.setX_busy (x : Block) : (s.setX x).busy = s.busy := rfl

@[simp] theorem State.setY_key (y : Block) : (s.setY y).key = s.key := rfl
@[simp] theorem State.setY_x (y : Block) : (s.setY y).x = s.x := rfl
@[simp] theorem State.setY_y (y : Block) : (s.setY y).y = y := rfl
@[simp] theorem State.setY_sk (y : Block) : (s.setY y).sk = s.sk := rfl
@[simp] theorem State.setY_kreg (y : Block) : (s.setY y).kreg = s.kreg := rfl
@[simp] theorem State.setY_trail (y : Block) : (s.setY y).trail = s.trail := rfl
@[simp] theorem State.setY_trailCount (y : Block) : (s.setY y).trailCount = s.trailCount := rfl
@[simp] theorem State.setY_cmd (y : Block) : (s.setY y).cmd = s.cmd := rfl
@[simp] theorem State.setY_pending (y : Block) : (s.setY y).pending = s.pending := rfl
@[simp] theorem State.setY_done (y : Block) : (s.setY y).done = s.done := rfl
@[simp] theorem State.setY_err (y : Block) : (s.setY y).err = s.err := rfl
@[simp] theorem State.setY_ksv (y : Block) : (s.setY y).ksv = s.ksv := rfl
@[simp] theorem State.setY_bwe (y : Block) : (s.setY y).bwe = s.bwe := rfl
@[simp] theorem State.setY_ecode (y : Block) : (s.setY y).ecode = s.ecode := rfl
@[simp] theorem State.setY_finalL (y : Block) : (s.setY y).finalL = s.finalL := rfl
@[simp] theorem State.setY_skWritten (y : Block) : (s.setY y).skWritten = s.skWritten := rfl
@[simp] theorem State.setY_rdata (y : Block) : (s.setY y).rdata = s.rdata := rfl
@[simp] theorem State.setY_unspecDrawn (y : Block) : (s.setY y).unspecDrawn = s.unspecDrawn := rfl
@[simp] theorem State.setY_program (y : Block) : (s.setY y).program = s.program := rfl
@[simp] theorem State.setY_schedule (y : Block) : (s.setY y).schedule = s.schedule := rfl
@[simp] theorem State.setY_busy (y : Block) : (s.setY y).busy = s.busy := rfl

@[simp] theorem State.busyWrite_key : s.busyWrite.key = s.key := rfl
@[simp] theorem State.busyWrite_x : s.busyWrite.x = s.x := rfl
@[simp] theorem State.busyWrite_y : s.busyWrite.y = s.y := rfl
@[simp] theorem State.busyWrite_sk : s.busyWrite.sk = s.sk := rfl
@[simp] theorem State.busyWrite_kreg : s.busyWrite.kreg = s.kreg := rfl
@[simp] theorem State.busyWrite_trail : s.busyWrite.trail = s.trail := rfl
@[simp] theorem State.busyWrite_trailCount : s.busyWrite.trailCount = s.trailCount := rfl
@[simp] theorem State.busyWrite_cmd : s.busyWrite.cmd = s.cmd := rfl
@[simp] theorem State.busyWrite_pending : s.busyWrite.pending = s.pending := rfl
@[simp] theorem State.busyWrite_done : s.busyWrite.done = s.done := rfl
@[simp] theorem State.busyWrite_err : s.busyWrite.err = s.err := rfl
@[simp] theorem State.busyWrite_ksv : s.busyWrite.ksv = s.ksv := rfl
@[simp] theorem State.busyWrite_bwe : s.busyWrite.bwe = true := rfl
@[simp] theorem State.busyWrite_ecode : s.busyWrite.ecode = s.ecode := rfl
@[simp] theorem State.busyWrite_finalL : s.busyWrite.finalL = s.finalL := rfl
@[simp] theorem State.busyWrite_skWritten : s.busyWrite.skWritten = s.skWritten := rfl
@[simp] theorem State.busyWrite_rdata : s.busyWrite.rdata = s.rdata := rfl
@[simp] theorem State.busyWrite_unspecDrawn : s.busyWrite.unspecDrawn = s.unspecDrawn := rfl
@[simp] theorem State.busyWrite_program : s.busyWrite.program = s.program := rfl
@[simp] theorem State.busyWrite_schedule : s.busyWrite.schedule = s.schedule := rfl
@[simp] theorem State.busyWrite_busy : s.busyWrite.busy = s.busy := rfl

@[simp] theorem State.writeKey_key (i : Fin 8) (v : Word) : (s.writeKey i v).key = s.key.set i v := rfl
@[simp] theorem State.writeKey_x (i : Fin 8) (v : Word) : (s.writeKey i v).x = s.x := rfl
@[simp] theorem State.writeKey_y (i : Fin 8) (v : Word) : (s.writeKey i v).y = s.y := rfl
@[simp] theorem State.writeKey_sk (i : Fin 8) (v : Word) : (s.writeKey i v).sk = s.sk := rfl
@[simp] theorem State.writeKey_kreg (i : Fin 8) (v : Word) : (s.writeKey i v).kreg = s.kreg := rfl
@[simp] theorem State.writeKey_trail (i : Fin 8) (v : Word) : (s.writeKey i v).trail = s.trail := rfl
@[simp] theorem State.writeKey_trailCount (i : Fin 8) (v : Word) : (s.writeKey i v).trailCount = s.trailCount := rfl
@[simp] theorem State.writeKey_cmd (i : Fin 8) (v : Word) : (s.writeKey i v).cmd = s.cmd := rfl
@[simp] theorem State.writeKey_pending (i : Fin 8) (v : Word) : (s.writeKey i v).pending = s.pending := rfl
@[simp] theorem State.writeKey_done (i : Fin 8) (v : Word) : (s.writeKey i v).done = s.done := rfl
@[simp] theorem State.writeKey_err (i : Fin 8) (v : Word) : (s.writeKey i v).err = s.err := rfl
@[simp] theorem State.writeKey_ksv (i : Fin 8) (v : Word) : (s.writeKey i v).ksv = false := rfl
@[simp] theorem State.writeKey_bwe (i : Fin 8) (v : Word) : (s.writeKey i v).bwe = s.bwe := rfl
@[simp] theorem State.writeKey_ecode (i : Fin 8) (v : Word) : (s.writeKey i v).ecode = s.ecode := rfl
@[simp] theorem State.writeKey_finalL (i : Fin 8) (v : Word) : (s.writeKey i v).finalL = s.finalL := rfl
@[simp] theorem State.writeKey_skWritten (i : Fin 8) (v : Word) : (s.writeKey i v).skWritten = s.skWritten := rfl
@[simp] theorem State.writeKey_rdata (i : Fin 8) (v : Word) : (s.writeKey i v).rdata = s.rdata := rfl
@[simp] theorem State.writeKey_unspecDrawn (i : Fin 8) (v : Word) : (s.writeKey i v).unspecDrawn = s.unspecDrawn := rfl
@[simp] theorem State.writeKey_program (i : Fin 8) (v : Word) : (s.writeKey i v).program = s.program := rfl
@[simp] theorem State.writeKey_schedule (i : Fin 8) (v : Word) : (s.writeKey i v).schedule = s.schedule := rfl
@[simp] theorem State.writeKey_busy (i : Fin 8) (v : Word) : (s.writeKey i v).busy = s.busy := rfl

@[simp] theorem State.writeCtrl_key (v : Word) : (s.writeCtrl v).key = s.key := rfl
@[simp] theorem State.writeCtrl_x (v : Word) : (s.writeCtrl v).x = s.x := rfl
@[simp] theorem State.writeCtrl_y (v : Word) : (s.writeCtrl v).y = s.y := rfl
@[simp] theorem State.writeCtrl_sk (v : Word) : (s.writeCtrl v).sk = s.sk := rfl
@[simp] theorem State.writeCtrl_kreg (v : Word) : (s.writeCtrl v).kreg = s.kreg := rfl
@[simp] theorem State.writeCtrl_trail (v : Word) : (s.writeCtrl v).trail = s.trail := rfl
@[simp] theorem State.writeCtrl_trailCount (v : Word) : (s.writeCtrl v).trailCount = s.trailCount := rfl
@[simp] theorem State.writeCtrl_cmd (v : Word) : (s.writeCtrl v).cmd = s.cmd := rfl
@[simp] theorem State.writeCtrl_pending (v : Word) : (s.writeCtrl v).pending = s.pending := rfl
@[simp] theorem State.writeCtrl_done (v : Word) : (s.writeCtrl v).done = s.done := rfl
@[simp] theorem State.writeCtrl_err (v : Word) : (s.writeCtrl v).err = s.err := rfl
@[simp] theorem State.writeCtrl_ksv (v : Word) : (s.writeCtrl v).ksv = s.ksv := rfl
@[simp] theorem State.writeCtrl_bwe (v : Word) : (s.writeCtrl v).bwe = s.bwe := rfl
@[simp] theorem State.writeCtrl_ecode (v : Word) : (s.writeCtrl v).ecode = s.ecode := rfl
@[simp] theorem State.writeCtrl_finalL (v : Word) : (s.writeCtrl v).finalL = v.getLsbD 0 := rfl
@[simp] theorem State.writeCtrl_skWritten (v : Word) : (s.writeCtrl v).skWritten = s.skWritten := rfl
@[simp] theorem State.writeCtrl_rdata (v : Word) : (s.writeCtrl v).rdata = s.rdata := rfl
@[simp] theorem State.writeCtrl_unspecDrawn (v : Word) : (s.writeCtrl v).unspecDrawn = s.unspecDrawn := rfl
@[simp] theorem State.writeCtrl_program (v : Word) : (s.writeCtrl v).program = s.program := rfl
@[simp] theorem State.writeCtrl_schedule (v : Word) : (s.writeCtrl v).schedule = s.schedule := rfl
@[simp] theorem State.writeCtrl_busy (v : Word) : (s.writeCtrl v).busy = s.busy := rfl

@[simp] theorem State.assertReset_key : s.assertReset.key = State.reset.key := rfl
@[simp] theorem State.assertReset_x : s.assertReset.x = State.reset.x := rfl
@[simp] theorem State.assertReset_y : s.assertReset.y = State.reset.y := rfl
@[simp] theorem State.assertReset_sk : s.assertReset.sk = State.reset.sk := rfl
@[simp] theorem State.assertReset_kreg : s.assertReset.kreg = State.reset.kreg := rfl
@[simp] theorem State.assertReset_trail : s.assertReset.trail = State.reset.trail := rfl
@[simp] theorem State.assertReset_trailCount : s.assertReset.trailCount = State.reset.trailCount := rfl
@[simp] theorem State.assertReset_cmd : s.assertReset.cmd = State.reset.cmd := rfl
@[simp] theorem State.assertReset_pending : s.assertReset.pending = State.reset.pending := rfl
@[simp] theorem State.assertReset_done : s.assertReset.done = State.reset.done := rfl
@[simp] theorem State.assertReset_err : s.assertReset.err = State.reset.err := rfl
@[simp] theorem State.assertReset_ksv : s.assertReset.ksv = State.reset.ksv := rfl
@[simp] theorem State.assertReset_bwe : s.assertReset.bwe = State.reset.bwe := rfl
@[simp] theorem State.assertReset_ecode : s.assertReset.ecode = State.reset.ecode := rfl
@[simp] theorem State.assertReset_finalL : s.assertReset.finalL = State.reset.finalL := rfl
@[simp] theorem State.assertReset_skWritten : s.assertReset.skWritten = State.reset.skWritten := rfl
@[simp] theorem State.assertReset_rdata : s.assertReset.rdata = s.rdata := rfl
@[simp] theorem State.assertReset_unspecDrawn : s.assertReset.unspecDrawn = s.unspecDrawn := rfl
@[simp] theorem State.assertReset_program : s.assertReset.program = s.program := rfl
@[simp] theorem State.assertReset_schedule : s.assertReset.schedule = s.schedule := rfl

@[simp] theorem State.reset_pending : State.reset.pending = none := rfl
@[simp] theorem State.reset_trailCount : State.reset.trailCount = 0x0000 := rfl
@[simp] theorem State.reset_err : State.reset.err = false := rfl
@[simp] theorem State.reset_done : State.reset.done = false := rfl
@[simp] theorem State.reset_ksv : State.reset.ksv = false := rfl
@[simp] theorem State.reset_bwe : State.reset.bwe = false := rfl
@[simp] theorem State.reset_ecode : State.reset.ecode = .none := rfl
@[simp] theorem State.reset_finalL : State.reset.finalL = false := rfl
@[simp] theorem State.reset_skWritten : State.reset.skWritten = false := rfl
@[simp] theorem State.reset_cmd : State.reset.cmd = 0x0000 := rfl

/-- BUSY = 0 exactly when nothing is pending (rule R35). -/
theorem State.busy_eq_false : s.busy = false ↔ s.pending = none := by
  simp [State.busy]

/-- BUSY = 1 exactly when a word is pending (rule R35). -/
theorem State.busy_eq_true : s.busy = true ↔ ∃ w, s.pending = some w := by
  simp [State.busy, Option.isSome_iff_exists]

/-- A write to STATUS as one update of BWE (rule R30). -/
theorem State.writeStatus_eq (v : Word) :
    s.writeStatus v = { s with bwe := if v.getLsbD 4 then false else s.bwe } := by
  unfold State.writeStatus
  split <;> rfl

end Sys2Proof.Machine
end

