-- ==== Sys2Proof/Laws/Ops.lean ====
section
/-! SUPPORT. One lemma for each shared operation, saying once everything it can do. -/

namespace Sys2Proof.Machine

/-- The engine's step on a command: the effect and completion, or one of the two rejections (rules R35, R99, R100). -/
theorem runCommand_cases (legal needsKey : Bool) (s : State) (effect : State → State) :
    (legal = true ∧ (needsKey = true → s.ksv = true) ∧ runCommand legal needsKey s effect = (effect s).complete) ∨
    (legal = false ∧ runCommand legal needsKey s effect = s.reject .range) ∨
    (legal = true ∧ needsKey = true ∧ s.ksv = false ∧ runCommand legal needsKey s effect = s.reject .nokey) := by
  cases legal <;> cases needsKey <;> cases h : s.ksv <;> simp [runCommand, h]

/-- A command that passes its tests runs (rule R35). -/
@[simp] theorem runCommand_accepted {legal needsKey : Bool} {s : State} (effect : State → State) (hl : legal = true)
    (hk : needsKey = true → s.ksv = true) : runCommand legal needsKey s effect = (effect s).complete := by
  cases needsKey <;> simp_all [runCommand]

/-- A command that needs no operand and no key runs from every state. -/
@[simp] theorem runCommand_free (s : State) (effect : State → State) :
    runCommand true false s effect = (effect s).complete := rfl

/-- Submission accepts the word or rejects it with its check's code (rules R98, R100). -/
theorem submit_cases (s : State) (v : Word) :
    (check v s.ksv = .none ∧ s.submit v = s.accept v) ∨
    (check v s.ksv ≠ .none ∧ s.submit v = s.reject (check v s.ksv)) := by
  unfold State.submit
  split
  · exact .inl ⟨‹_›, rfl⟩
  · exact .inr ⟨‹_›, rfl⟩

/-- A word written to CMD is accepted or rejected (rules R62, R98, R100). -/
theorem writeCmd_cases (s : State) (v : Word) :
    (check v s.ksv = .none ∧ s.writeCmd v = (s.storeCmd v).accept v) ∨
    (check v s.ksv ≠ .none ∧ s.writeCmd v = (s.storeCmd v).reject (check v s.ksv)) :=
  submit_cases (s.storeCmd v) v

/-- A host write is dropped, writes one register, submits a word, or is ignored (rule R62). -/
theorem regWrite_cases (s : State) (a : Addr) (v : Word) :
    (a = 0x011 ∧ s.regWrite a v = { s with bwe := if v.getLsbD 4 then false else s.bwe }) ∨
    ((a.toNat ≤ 0x010 ∨ a = 0x012) ∧ s.busy = true ∧ s.regWrite a v = s.busyWrite) ∨
    (s.busy = false ∧ ∃ i, a = keyAddr i ∧ s.regWrite a v = s.writeKey i v) ∨
    (s.busy = false ∧ ∃ i, a = xAddr i ∧ s.regWrite a v = s.setX (s.x.set i v)) ∨
    (s.busy = false ∧ ∃ i, a = yAddr i ∧ s.regWrite a v = s.setY (s.y.set i v)) ∨
    (s.busy = false ∧ a = 0x012 ∧ s.regWrite a v = s.writeCtrl v) ∨
    (s.busy = false ∧ a = 0x010 ∧ s.regWrite a v = s.writeCmd v) ∨
    (0x013 ≤ a.toNat ∧ s.regWrite a v = s) := by
  have spec := registerAt_spec a
  unfold State.regWrite
  cases hr : registerAt a <;> rw [hr] at spec <;> dsimp only at spec ⊢
  case key i =>
    cases hb : s.busy
    · exact .inr (.inr (.inl ⟨rfl, i, spec, rfl⟩))
    · refine .inr (.inl ⟨.inl ?_, rfl, rfl⟩)
      subst spec; simp [keyAddr]; omega
  case x i =>
    cases hb : s.busy
    · exact .inr (.inr (.inr (.inl ⟨rfl, i, spec, rfl⟩)))
    · refine .inr (.inl ⟨.inl ?_, rfl, rfl⟩)
      subst spec; simp [xAddr]; omega
  case y i =>
    cases hb : s.busy
    · exact .inr (.inr (.inr (.inr (.inl ⟨rfl, i, spec, rfl⟩))))
    · refine .inr (.inl ⟨.inl ?_, rfl, rfl⟩)
      subst spec; simp [yAddr]; omega
  case cmd =>
    cases hb : s.busy
    · exact .inr (.inr (.inr (.inr (.inr (.inr (.inl ⟨rfl, spec, rfl⟩))))))
    · exact .inr (.inl ⟨.inl (by subst spec; decide), rfl, rfl⟩)
  case status => exact .inl ⟨spec, State.writeStatus_eq s v⟩
  case ctrl =>
    cases hb : s.busy
    · exact .inr (.inr (.inr (.inr (.inr (.inl ⟨rfl, spec, rfl⟩)))))
    · exact .inr (.inl ⟨.inr spec, rfl, rfl⟩)
  all_goals refine .inr (.inr (.inr (.inr (.inr (.inr (.inr ⟨?_, rfl⟩))))))
  case trailCount => subst spec; decide
  case config => subst spec; decide
  case sk g i =>
    subst spec
    simp only [skAddr, BitVec.toNat_ofNat]
    rw [Nat.mod_eq_of_lt (by omega)]
    omega
  case trail n w =>
    subst spec
    simp only [trailAddr, BitVec.toNat_ofNat]
    rw [Nat.mod_eq_of_lt (by omega)]
    omega
  case reserved => omega

/-- A host write to a KEY, X, Y, CMD or CTRL address while BUSY = 1 is dropped (rule R101). -/
theorem regWrite_busy {s : State} (a : Addr) (v : Word) (hb : s.busy = true) (ha : a.toNat ≤ 0x010 ∨ a = 0x012) :
    s.regWrite a v = s.busyWrite := by
  rcases regWrite_cases s a v with ⟨h, -⟩ | ⟨-, -, h⟩ | ⟨h, -⟩ | ⟨h, -⟩ | ⟨h, -⟩ | ⟨h, -⟩ | ⟨h, -⟩ | ⟨h, -⟩
  · subst h; exact absurd ha (by decide)
  · exact h
  · simp_all
  · simp_all
  · simp_all
  · simp_all
  · simp_all
  · rcases ha with ha | rfl
    · omega
    · exact absurd h (by decide)

/-- The effect of an idle host write, register by register (rule R62). -/
theorem regWrite_idle {s : State} (v : Word) (hb : s.busy = false) :
    (∀ i, s.regWrite (keyAddr i) v = s.writeKey i v) ∧ (∀ i, s.regWrite (xAddr i) v = s.setX (s.x.set i v)) ∧
    (∀ i, s.regWrite (yAddr i) v = s.setY (s.y.set i v)) ∧ s.regWrite 0x012 v = s.writeCtrl v ∧
    s.regWrite 0x010 v = s.writeCmd v := by
  simp [State.regWrite, hb]

/-- The pending command's write set is empty when nothing is pending (rule R63). -/
@[simp] theorem pendingWrites_none {s : State} (h : s.pending = none) : s.pendingWrites = [] := by
  simp [State.pendingWrites, h]

/-- The write set of a pending command (rule R64). -/
theorem pendingWrites_some {s : State} {w : Word} {i : Instr} (h : s.pending = some w)
    (hd : decode (.command w) = some i) : s.pendingWrites = writeSet i := by
  have : decodeCommand w = some i := hd
  simp [State.pendingWrites, h, this]

/-- What the host holds after a read, and nothing else, has changed (rules R44, R63). -/
theorem returnValue_frame (s : State) (r : ReadValue) :
    s.returnValue r = { s with rdata := (s.returnValue r).rdata, unspecDrawn := (s.returnValue r).unspecDrawn } := by
  cases r <;> rfl

/-- A word that decodes is a command. -/
theorem isCommand_of_decode {w : Word} {i : Instr} (h : decode (.command w) = some i) : i.isCommand = true := by
  obtain ⟨row, -, hrow⟩ := Option.map_eq_some_iff.mp (show (opcodeTable.find? _).map _ = some i from h)
  subst hrow
  cases row.op <;> rfl

/-- What a command's arm can answer: its effect and completion, or a rejection. -/
theorem exec_command_next {i : Instr} (s : State) (h : i.isCommand = true) :
    ∃ t, exec i s = .next t ∧ t.pending = none := by
  cases i
  case regwr => cases h
  case regrd => cases h
  case ksched => exact ⟨_, rfl, rfl⟩
  case lfwd => exact ⟨_, rfl, rfl⟩
  case linv => exact ⟨_, rfl, rfl⟩
  all_goals
    refine ⟨_, rfl, ?_⟩
    unfold runCommand
    split
    · rfl
    · split <;> rfl

/-- Every step, by the agent that makes it: a reset, an idle turn, the engine on its command (or stopped on a word that is
none), a host transaction, or the read of a poll. -/
theorem step_cases (s : State) :
    (s.mover = .reset ∧ step s = .next s.takeTurn.assertReset) ∨
    (s.mover = .engine ∧ s.pending = none ∧ step s = .next s.takeTurn) ∨
    (s.mover = .host ∧ s.program = [] ∧ step s = .next s.takeTurn) ∨
    (∃ w i, s.mover = .engine ∧ s.pending = some w ∧ decode (.command w) = some i ∧ step s = exec i s.takeTurn) ∨
    (∃ w, s.mover = .engine ∧ s.pending = some w ∧ decode (.command w) = none ∧
      step s = .fault (.pendingNotACommand w)) ∨
    (∃ t rest, s.mover = .host ∧ s.program = .bus t :: rest ∧
      step s = exec (decodeBus t) { s.takeTurn with program := rest }) ∨
    (∃ a mask value rest, s.mover = .host ∧ s.program = .poll a mask value :: rest ∧
      step s = .next ((s.takeTurn.returnValue (s.takeTurn.regRead a)).settlePoll (some (mask, value)))) := by
  cases hm : s.mover
  · cases hp : s.program with
    | nil => simp [step, State.fetch, hm, hp, State.turnWithoutFetch]
    | cons op rest =>
      cases op with
      | bus t =>
        refine .inr (.inr (.inr (.inr (.inr (.inl ⟨t, rest, rfl, rfl, ?_⟩)))))
        have hf : s.afterFetch = { s.takeTurn with program := rest } := by
          simp [State.afterFetch, hm, hp, State.popProgram]
        cases t <;> simp [step, State.fetch, State.polling, hm, hp, hf, State.settlePoll, decodeBus, exec, execRegwr,
          execRegrd]
      | poll a mask value =>
        refine .inr (.inr (.inr (.inr (.inr (.inr ⟨a, mask, value, rest, rfl, rfl, ?_⟩)))))
        simp [step, State.fetch, State.polling, State.afterFetch, hm, hp, decodeBus, exec, execRegrd]
  · cases hp : s.pending with
    | none => simp [step, State.fetch, hm, hp, State.turnWithoutFetch]
    | some w =>
      cases hd : decode (.command w) with
      | none => simp [step, State.fetch, hm, hp, hd]
      | some i => simp [step, State.fetch, hm, hp, hd, State.afterFetch]
  · simp [step, State.fetch, hm, State.turnWithoutFetch]

end Sys2Proof.Machine
end

