-- ==== Sys2Proof/Laws/PerInstr.lean ====
section
/-! SUPPORT. A statement about every instruction as syntax, with one lemma for each constructor: the encoding of a
well-formed command is selected by a row of the opcode map (rule R55), and a bus transaction is no command word
(rule R54). -/

namespace Sys2Proof.Laws.EncodingFitsTheOpcodeMap

/-- A row of the opcode map selects this command word. -/
def inMap (w : Word) : Bool := opcodeTable.any (fun row => row.selects w)

/-- The statement of this family. -/
def Statement (i : Instr) : Prop :=
  i.wellFormed = true →
    match encode i with
    | .command w => i.isCommand = true ∧ inMap w = true
    | .bus _ => i.isCommand = false

/-- The words of the operations with a range, for every pair of field values. -/
theorem range_inMap :
    ∀ lo hi : Fin 32, ∀ op ∈ [Opcode.encr, .decr, .encs, .decs], inMap (commandWord op lo hi) = true := by
  decide +kernel

/-- The words of TRAIL, for every count. -/
theorem count_inMap : ∀ n : Fin 32, inMap (commandWord .trail 0 n) = true := by decide +kernel

theorem ksched : Statement .ksched := fun _ => ⟨rfl, by decide⟩

theorem encr (r1 r2 : Nat) : Statement (.encr r1 r2) := by
  intro h
  simp only [Instr.wellFormed, decide_eq_true_eq] at h
  exact ⟨rfl, range_inMap ⟨r1, by omega⟩ ⟨r2, by omega⟩ .encr (by decide)⟩

theorem decr (r1 r2 : Nat) : Statement (.decr r1 r2) := by
  intro h
  simp only [Instr.wellFormed, decide_eq_true_eq] at h
  exact ⟨rfl, range_inMap ⟨r1, by omega⟩ ⟨r2, by omega⟩ .decr (by decide)⟩

theorem encs (s1 s2 : Nat) : Statement (.encs s1 s2) := by
  intro h
  simp only [Instr.wellFormed, decide_eq_true_eq] at h
  exact ⟨rfl, range_inMap ⟨s1, by omega⟩ ⟨s2, by omega⟩ .encs (by decide)⟩

theorem decs (s1 s2 : Nat) : Statement (.decs s1 s2) := by
  intro h
  simp only [Instr.wellFormed, decide_eq_true_eq] at h
  exact ⟨rfl, range_inMap ⟨s1, by omega⟩ ⟨s2, by omega⟩ .decs (by decide)⟩

theorem lfwd : Statement .lfwd := fun _ => ⟨rfl, by decide⟩

theorem linv : Statement .linv := fun _ => ⟨rfl, by decide⟩

theorem trail (n : Nat) : Statement (.trail n) := by
  intro h
  simp only [Instr.wellFormed, decide_eq_true_eq] at h
  exact ⟨rfl, count_inMap ⟨n, by omega⟩⟩

theorem regwr (a : Addr) (v : Word) : Statement (.regwr a v) := fun _ => rfl

theorem regrd (a : Addr) : Statement (.regrd a) := fun _ => rfl

end Sys2Proof.Laws.EncodingFitsTheOpcodeMap
end

