-- ==== Sys2Proof/Machine/Assembly.lean ====
section
/-! DEFINITION. Host assembly (30_encoding.md, rules R60 and R61): the lines of a host program, their expansion into
bus operations, and their text. -/

namespace Sys2Proof.Machine

/-- A line of host assembly: a primitive line (rule R60), a command mnemonic (rule R60), or a pseudo-instruction
(rule R61). -/
inductive AsmLine where
  | wr (a : Addr) (v : Word)
  | rd (a : Addr)
  | poll (a : Addr) (mask value : Word)
  | command (op : Opcode) (lo hi : Nat)
  | wait
  | ldkey (k : KeyWords)
  | ldkeyb (k : Vector Byte 16)
  | ldx (x : Block)
  | ldy (y : Block)
  | stx
  | sty
  | encrypt
  | decrypt
  | clrbwe
  | setfinall (b : Word)
  deriving DecidableEq, Repr

/-- `wr ADDR, DATA` as an operation. -/
def wrOp (a : Addr) (v : Word) : HostOp := .bus (.write a v)

/-- `rd ADDR` as an operation. -/
def rdOp (a : Addr) : HostOp := .bus (.read a)

/-- A command mnemonic "stands for `wr CMD, <encoding>`" (rule R60). -/
def commandOp (op : Opcode) (lo hi : Nat) : HostOp := wrOp cmdAddr (commandWord op lo hi)

/-- `wait` is `poll STATUS, 0x0001, 0x0000` (rule R61). -/
def waitOp : HostOp := .poll statusAddr 0x0001 0x0000

/-- `ldkey k0,…,k7` (rule R61). -/
def ldkeyOps (k : KeyWords) : List HostOp :=
  (List.finRange 8).map (fun i => wrOp (keyAddr i) (k.get i))

/-- The expansion of a line (rules R60 and R61). -/
def AsmLine.expand : AsmLine → List HostOp
  | .wr a v => [wrOp a v]
  | .rd a => [rdOp a]
  | .poll a mask value => [.poll a mask value]
  | .command op lo hi => [commandOp op lo hi]
  | .wait => [waitOp]
  | .ldkey k => ldkeyOps k
  | .ldkeyb k => ldkeyOps (keyOfBytes k)
  | .ldx x => (List.finRange 4).map (fun i => wrOp (xAddr i) (x.get i))
  | .ldy y => (List.finRange 4).map (fun i => wrOp (yAddr i) (y.get i))
  | .stx => (List.finRange 4).map (fun i => rdOp (xAddr i))
  | .sty => (List.finRange 4).map (fun i => rdOp (yAddr i))
  | .encrypt => [commandOp .encs 1 8, waitOp]
  | .decrypt => [commandOp .decs 1 8, waitOp]
  | .clrbwe => [wrOp statusAddr 0x0010]
  | .setfinall b => [wrOp ctrlAddr b]

/-- A host program's operations. -/
def assemble (lines : List AsmLine) : List HostOp := lines.flatMap AsmLine.expand

/-! ### The text of a line

A line's text is read as tokens.  Blanks, commas and parentheses only separate tokens, and letter case is ignored in
names as in mnemonics (DESIGN CHOICE, assumption log 17).  A token `->` and what follows it records an expected value
(rule R60) and stands for no operation. -/

/-- A character that only separates tokens. -/
def isSeparator (c : Char) : Bool :=
  c == ' ' || c == '\t' || c == '\r' || c == ',' || c == '(' || c == ')'

/-- The tokens of a text, `current` being the one under way, last character first. -/
def tokensFrom (current : List Char) : List Char → List (List Char)
  | [] => if current.isEmpty then [] else [current.reverse]
  | c :: rest =>
    if isSeparator c then
      if current.isEmpty then tokensFrom [] rest else current.reverse :: tokensFrom [] rest
    else tokensFrom (c.toLower :: current) rest

/-- The tokens of a line: what stands before `;`, up to a token `->`. -/
def lineTokens (line : List Char) : List (List Char) :=
  (tokensFrom [] (line.takeWhile (· != ';'))).takeWhile (· != ['-', '>'])

/-- The value of a digit in a base of at most 16. -/
def digitValue (base : Nat) (c : Char) : Option Nat :=
  let d :=
    if '0' ≤ c ∧ c ≤ '9' then some (c.toNat - '0'.toNat)
    else if 'a' ≤ c ∧ c ≤ 'f' then some (c.toNat - 'a'.toNat + 10)
    else none
  d.filter (· < base)

/-- The number a digit string stands for; none for no digits. -/
def digitsValue (base : Nat) (ds : List Char) : Option Nat :=
  if ds.isEmpty then none else ds.foldlM (fun acc c => (digitValue base c).map (acc * base + ·)) 0

/-- "Numbers are decimal or `0x` hex" (rule R60). -/
def parseNumber : List Char → Option Nat
  | '0' :: 'x' :: ds => digitsValue 16 ds
  | ds => digitsValue 10 ds

/-- A number below a bound. -/
def parseBelow (bound : Nat) (t : List Char) : Option Nat := (parseNumber t).filter (· < bound)

/-- A 16-bit datum. -/
def parseWord (t : List Char) : Option Word := (parseBelow 0x10000 t).map (BitVec.ofNat 16)

/-- A byte. -/
def parseByte (t : List Char) : Option Byte := (parseBelow 0x100 t).map (BitVec.ofNat 8)

/-- The register names of rule R60. -/
def registerNames : List (String × Addr) :=
  [ ("key0", 0x000), ("key1", 0x001), ("key2", 0x002), ("key3", 0x003),
    ("key4", 0x004), ("key5", 0x005), ("key6", 0x006), ("key7", 0x007),
    ("x0", 0x008), ("x1", 0x009), ("x2", 0x00A), ("x3", 0x00B),
    ("y0", 0x00C), ("y1", 0x00D), ("y2", 0x00E), ("y3", 0x00F) ] ++
  [ ("cmd", 0x010), ("status", 0x011), ("ctrl", 0x012), ("trail_count", 0x013), ("config", 0x014) ]

/-- The address of a register name. -/
def nameAddr (t : List Char) : Option Addr :=
  (registerNames.find? (fun row => row.1.toList == t)).map (·.2)

/-- ADDR, "a number or a register name", and the tokens after it; `SK(g,i)` and `TR(n,w)` are three tokens. -/
def parseAddr : List (List Char) → Option (Addr × List (List Char))
  | ['s', 'k'] :: g :: i :: rest => do
    let g ← parseBelow 17 g
    let i ← parseBelow 6 i
    pure (BitVec.ofNat 10 (0x100 + 6 * g + i), rest)
  | ['t', 'r'] :: n :: w :: rest => do
    let n ← parseBelow 32 n
    let w ← parseBelow 8 w
    pure (BitVec.ofNat 10 (0x200 + 8 * n + w), rest)
  | t :: rest =>
    match nameAddr t with
    | some a => some (a, rest)
    | none => (parseBelow 0x400 t).map (fun a => (BitVec.ofNat 10 a, rest))
  | [] => none

/-- A block of four data. -/
def parseBlock (ts : List (List Char)) : Option Block := do
  match ← ts.mapM parseWord with
  | [a, b, c, d] => pure ⟨a, b, c, d⟩
  | _ => none

/-- A key of eight data. -/
def parseKey (ts : List (List Char)) : Option KeyWords := do
  match ← ts.mapM parseWord with
  | [a, b, c, d, e, f, g, h] => pure ⟨a, b, c, d, e, f, g, h⟩
  | _ => none

/-- A key of sixteen bytes. -/
def parseKeyBytes (ts : List (List Char)) : Option (Vector Byte 16) := do
  let bs ← ts.mapM parseByte
  if h : bs.toArray.size = 16 then pure ⟨bs.toArray, h⟩ else none

/-- A line with no operand. -/
def parsePlain (name : List Char) : Option AsmLine :=
  ([("ksched", .command .ksched 0 0), ("lfwd", .command .lfwd 0 0), ("linv", .command .linv 0 0), ("wait", .wait),
    ("stx", .stx), ("sty", .sty), ("encrypt", .encrypt), ("decrypt", .decrypt), ("clrbwe", .clrbwe)].find?
      (fun row => row.1.toList == name)).map (·.2)

/-- A command with a range. -/
def rangeCommand (name : List Char) : Option Opcode :=
  ([("encr", .encr), ("decr", .decr), ("encs", .encs), ("decs", .decs)].find?
    (fun row => row.1.toList == name)).map (·.2)

/-- A line of one name and its operand tokens. -/
def parseNamed (name : List Char) (ts : List (List Char)) : Option AsmLine :=
  if ts.isEmpty then parsePlain name
  else if name = "wr".toList then do
    match ← parseAddr ts with
    | (a, [v]) => (parseWord v).map (AsmLine.wr a)
    | _ => none
  else if name = "rd".toList then do
    match ← parseAddr ts with
    | (a, []) => pure (AsmLine.rd a)
    | _ => none
  else if name = "poll".toList then do
    match ← parseAddr ts with
    | (a, [m, v]) => do pure (AsmLine.poll a (← parseWord m) (← parseWord v))
    | _ => none
  else if name = "trail".toList then
    match ts with
    | [n] => (parseBelow 32 n).map (AsmLine.command .trail 0)
    | _ => none
  else if name = "ldkey".toList then (parseKey ts).map AsmLine.ldkey
  else if name = "ldkeyb".toList then (parseKeyBytes ts).map AsmLine.ldkeyb
  else if name = "ldx".toList then (parseBlock ts).map AsmLine.ldx
  else if name = "ldy".toList then (parseBlock ts).map AsmLine.ldy
  else if name = "setfinall".toList then
    match ts with
    | [b] => (parseWord b).map AsmLine.setfinall
    | _ => none
  else
    match rangeCommand name, ts with
    | some op, [lo, hi] => do pure (AsmLine.command op (← parseBelow 32 lo) (← parseBelow 32 hi))
    | _, _ => none

/-- The operations of one line of text; a blank or comment line has none. -/
def assembleLine (line : List Char) : Option (List HostOp) :=
  match lineTokens line with
  | [] => some []
  | name :: ts => (parseNamed name ts).map AsmLine.expand

/-- The lines of a text, `current` being the one under way, last character first. -/
def textLinesFrom (current : List Char) : List Char → List (List Char)
  | [] => [current.reverse]
  | c :: rest => if c == '\n' then current.reverse :: textLinesFrom [] rest else textLinesFrom (c :: current) rest

/-- The operations of a program's text; none when a line is not host assembly. -/
def assembleText (text : List Char) : Option (List HostOp) :=
  ((textLinesFrom [] text).mapM assembleLine).map List.flatten

end Sys2Proof.Machine
end

