-- ==== Sys2Proof/Tests/Slice0.lean ====
section
/-! SUPPORT. Tests.  Expected values are those of the spec: 30_encoding.md section 6, 41 to 45's examples and
95_test_vectors.md, whose vector each docstring names.  And for each statement with hypotheses a witness that meets them. -/

namespace Sys2Proof.Tests

open Sys2Proof.Machine Sys2Proof.Safety Sys2Proof.Statements

/-- The next state of an outcome, for tests. -/
def after (o : Host.Outcome State Fault Refusal) : State :=
  match o with
  | .next t => t
  | _ => State.reset

/-- KEY of KAT-1. -/
def katKey : KeyWords := ⟨0x0011, 0x2233, 0x4455, 0x6677, 0x8899, 0xaabb, 0xccdd, 0xeeff⟩

/-- PT, the plaintext of KAT-1. -/
def pt : Block := ⟨0x0123, 0x4567, 0x89ab, 0xcdef⟩

/-- Reset, then KEY and X written. -/
def loaded : State := { State.reset with key := katKey, x := pt }

/-- The state after KSCHED under the KAT key, with X = PT and Y = PT ⊕ (802a, d4a8, 0, 0). -/
def keyed : State :=
  { loaded with
    y := ⟨0x8109, 0x91cf, 0x89ab, 0xcdef⟩
    sk := scheduleOf katKey
    ksv := true
    skWritten := true }

/-- `keyed` with FINAL_L = 1, the mode of KAT-1. -/
def keyedL : State := { keyed with finalL := true }

/-- A state in which the command word v, just accepted, is in flight. -/
def inFlight (s : State) (v : Word) : State := after (exec (.regwr 0x010 v) s)

/-! ### WellFormed refuses each kind of ill-formed operand -/

theorem test_wf_rounds_from_zero : (Instr.encr 0 4).wellFormed = false ∧ (Instr.decr 0 4).wellFormed = false := by decide
theorem test_wf_rounds_empty : (Instr.encr 5 4).wellFormed = false ∧ (Instr.decr 5 4).wellFormed = false := by decide
theorem test_wf_rounds_high : (Instr.encr 1 25).wellFormed = false ∧ (Instr.decr 1 25).wellFormed = false := by decide
theorem test_wf_steps_from_zero : (Instr.encs 0 1).wellFormed = false ∧ (Instr.decs 0 1).wellFormed = false := by decide
theorem test_wf_steps_empty : (Instr.encs 3 2).wellFormed = false ∧ (Instr.decs 3 2).wellFormed = false := by decide
theorem test_wf_steps_high : (Instr.encs 1 9).wellFormed = false ∧ (Instr.decs 1 9).wellFormed = false := by decide
theorem test_wf_count : (Instr.trail 0).wellFormed = false ∧ (Instr.trail 9).wellFormed = false := by decide

/-! ### Decoding: words written out field by field, OP_RSV_FROM_TO (rules R53 and R55) -/

theorem test_decode_ksched : decode (.command 0b0001_00_00000_00000) = some .ksched := by decide
theorem test_decode_encr : decode (.command 0b0010_00_00111_01000) = some (.encr 7 8) := by decide
theorem test_decode_decr : decode (.command 0b0011_00_10110_11000) = some (.decr 22 24) := by decide
theorem test_decode_encs : decode (.command 0b0100_00_00001_01000) = some (.encs 1 8) := by decide
theorem test_decode_decs : decode (.command 0b0101_00_00010_00101) = some (.decs 2 5) := by decide
theorem test_decode_lfwd : decode (.command 0b0110_00_00000_00000) = some .lfwd := by decide
theorem test_decode_linv : decode (.command 0b0111_00_00000_00000) = some .linv := by decide
theorem test_decode_trail : decode (.command 0b1000_00_00000_01000) = some (.trail 8) := by decide
theorem test_decode_regwr : decode (.bus (.write 0x012 0xFFFE)) = some (.regwr 0x012 0xFFFE) := by decide
theorem test_decode_regrd : decode (.bus (.read 0x2FF)) = some (.regrd 0x2FF) := by decide

/-- Rule R56: illegal OPs, a nonzero RSV, and nonzero must-be-zero fields. -/
theorem test_decode_rejects :
    decode (.command 0x0000) = none ∧ decode (.command 0x9000) = none ∧ decode (.command 0xF000) = none ∧
    decode (.command 0x2C21) = none ∧ decode (.command 0x6001) = none ∧ decode (.command 0x1020) = none ∧
    decode (.command 0x8021) = none := by decide

/-- The table's encodings, as the host's aid numbers them. -/
theorem test_decode_table_word :
    decodeTableWord 16 0x4028 = some (.encs 1 8) ∧ decodeTableWord 8 0x00 = none := by decide

/-- 30_encoding.md section 6: the encoder's words. -/
theorem test_encode :
    encode (.encr 1 4) = .command 0x2024 ∧ encode (.decr 22 24) = .command 0x32D8 ∧
    encode (.encs 2 3) = .command 0x4043 ∧ encode (.trail 2) = .command 0x8002 := by decide

/-! ### One step each, against the spec's vectors -/

/-- V-KS-3, groups 1 and 16. -/
theorem test_ksched :
    (after (exec .ksched loaded)).sk[1] = ⟨0xccdd, 0xef00, 0x4433, 0xccff, 0x8888, 0x3376⟩ ∧
    (after (exec .ksched loaded)).sk[16] = ⟨0x553a, 0x736a, 0x21a2, 0xac87, 0x6fa6, 0x4b08⟩ := by decide +kernel

/-- V-KS-5: the all-ones key, group 16. -/
theorem test_ksched_ones :
    (after (exec .ksched { State.reset with key := ⟨0xffff, 0xffff, 0xffff, 0xffff, 0xffff, 0xffff, 0xffff, 0xffff⟩ })).sk[16] =
      ⟨0xcc35, 0x6587, 0x0a5f, 0xb3ff, 0xc936, 0xb40f⟩ := by decide +kernel

/-- V-R-5, a range across a step boundary. -/
theorem test_encr_across_steps : (after (exec (.encr 3 4) keyed)).x = ⟨0x5ef9, 0x9a7c, 0xb51d, 0x830b⟩ := by
  decide +kernel

/-- V-R-9, all rounds. -/
theorem test_encr_all : (after (exec (.encr 1 24) keyed)).x = ⟨0x0568, 0xfab7, 0xb0ed, 0x72dd⟩ := by decide +kernel

/-- V-R-7, rounds beyond step 1. -/
theorem test_decr_last_step : (after (exec (.decr 22 24) keyed)).x = ⟨0x40f5, 0x4004, 0xa0b8, 0x9fed⟩ := by
  decide +kernel

/-- V-R-2. -/
theorem test_decr : (after (exec (.decr 1 2) keyed)).x = ⟨0x4dae, 0xeca1, 0x2714, 0x9a38⟩ := by decide +kernel

/-- V-S-9, KAT-1. -/
theorem test_encs_kat : (after (exec (.encs 1 8) keyedL)).x = ⟨0x2bbe, 0xf152, 0x01f5, 0x5f98⟩ := by decide +kernel

/-- V-S-6, the last step with FINAL_L = 0. -/
theorem test_encs_last_step : (after (exec (.encs 8 8) keyed)).x = ⟨0xeba2, 0x2319, 0xdd10, 0x44be⟩ := by decide +kernel

/-- V-S-10, FINAL_L = 1. -/
theorem test_decs_kat :
    (after (exec (.decs 1 8) { keyedL with x := ⟨0x2bbe, 0xf152, 0x01f5, 0x5f98⟩ })).x = pt := by decide +kernel

/-- V-S-3. -/
theorem test_decs : (after (exec (.decs 2 5) keyed)).x = ⟨0xaa7e, 0x4df0, 0x3f49, 0x52ef⟩ := by decide +kernel

/-- V-LN-1. -/
theorem test_lfwd : (after (exec .lfwd { State.reset with x := pt })).x = ⟨0xcccc, 0xcccc, 0x0123, 0x4567⟩ := by decide

/-- V-LN-3. -/
theorem test_linv : (after (exec .linv { State.reset with x := pt })).x = ⟨0x89ab, 0xcdef, 0xcccc, 0xcccc⟩ := by decide

/-- V-T-1: count, record 2 and record 3. -/
theorem test_trail_one :
    let t := after (exec (.trail 1) keyed)
    t.trailCount = 4 ∧ t.trail[2] = ⟨1, 1, 3, 0x0a31, 0x964c, 0, 0, 0⟩ ∧
      t.trail[3] = ⟨2, 1, 0, 0x77ad, 0xebd0, 0x0a31, 0x964c, 0⟩ := by decide +kernel

/-- V-T-3: count, record 30, X and Y. -/
theorem test_trail_eight :
    let t := after (exec (.trail 8) keyed)
    t.trailCount = 31 ∧ t.trail[30] = ⟨1, 8, 24, 0x27e2, 0x9cfa, 0x9964, 0x902f, 0⟩ ∧
      t.x = ⟨0x756d, 0x8075, 0x37a2, 0x9573⟩ ∧ t.y = ⟨0x528f, 0x1c8f, 0xaec6, 0x055c⟩ := by decide +kernel

/-- V-C-13: a busy write is dropped. -/
theorem test_regwr_busy :
    let t := after (exec (.regwr 0x008 0xAAAA) (inFlight State.reset 0x6000))
    t.statusWord = 0x0011 ∧ t.x = Block.zero := by decide

/-- V-C-16: writing KEY0 the value it holds clears KSV. -/
theorem test_regwr_key : (after (exec (.regwr 0x000 0x0011) { keyed with done := true })).statusWord = 0x0002 := by
  decide +kernel

/-- V-C-2, V-C-9, V-C-10, V-C-12: STATUS after a command word. -/
theorem test_regwr_cmd :
    (inFlight State.reset 0x2021).statusWord = 0x0404 ∧ (inFlight State.reset 0x2C21).statusWord = 0x0204 ∧
    (inFlight State.reset 0x8000).statusWord = 0x0304 ∧
    (inFlight (inFlight State.reset 0x9000) 0x6000).statusWord = 0x0001 := by decide

/-- V-C-1: CONFIG and a reserved address. -/
theorem test_regrd :
    (after (exec (.regrd 0x014) State.reset)).rdata = 0x0823 ∧ (after (exec (.regrd 0x015) State.reset)).rdata = 0x0000 := by
  decide

/-- V-KS-6: the last word of the SK window. -/
theorem test_regrd_sk : (after (exec (.regrd 0x165) keyed)).rdata = 0x4b08 := by decide +kernel

/-- The host's aid: the word runs on the very next step. -/
theorem test_fetch_word :
    (after (step (State.reset.withFetchWord 16 0x6000))).done = true ∧
    (after (step (State.reset.withFetchWord 16 0x6000))).busy = false := by decide

/-- V-RS-2: reset while a command is in flight. -/
theorem test_reset_while_busy :
    (after (step { inFlight keyed 0x4028 with schedule := [.reset] })).busy = false ∧
    (after (step { inFlight keyed 0x4028 with schedule := [.reset] })).x = Block.zero := by decide +kernel

/-- V-A-5, V-A-6 and V-Ai-3: A wraps, and A_inverse. -/
theorem test_round_transform :
    roundA (0x0080, 0xffff) = (0x0000, 0xffff) ∧ roundA (0xffff, 0xffff) = (0xfffe, 0x0001) ∧
    roundAInv (0x1234, 0x5678) = (0x9080, 0x1113) := by decide

/-- V-KS-2b: the counter of KPERM wraps. -/
theorem test_kperm_wraps :
    kperm ⟨0xffff, 0xffff, 0xffff, 0xffff, 0xffff, 0xffff, 0xffff, 0xffff⟩ 1 =
      ⟨0xffff, 0x0000, 0xfffe, 0x0001, 0xfffd, 0x0000, 0xffff, 0xffff⟩ := by decide

/-- Rules R60 and R61: a command, a register by name and by window, a pseudo-instruction. -/
theorem test_assembly :
    assembleText "ENCS 1, 8 ; the cipher\nrd SK(16,5) -> 0x4b08\nwait".toList =
      some [.bus (.write 0x010 0x4028), .bus (.read 0x165), .poll 0x011 0x0001 0x0000] := by decide +kernel

/-- The key bytes of KAT-1 (rule R40). -/
theorem test_key_of_bytes :
    keyOfBytes #v[0x00, 0x11, 0x22, 0x33, 0x44, 0x55, 0x66, 0x77, 0x88, 0x99, 0xaa, 0xbb, 0xcc, 0xdd, 0xee, 0xff] =
      katKey := by decide

/-! ### Witnesses: for each statement with hypotheses, states and operands that meet them, clause by clause -/

/-- Reset with a program and an order of moves. -/
def running (program : List HostOp) (schedule : List Agent) : State :=
  { State.reset with program := program, schedule := schedule }

/-- LFWD in flight and the engine to move. -/
def engineTurn : State := { inFlight State.reset 0x6000 with schedule := [.engine] }

theorem witness_DecodeOfEncodeIsTheInstruction :
    Instr.ksched.wellFormed = true ∧ (Instr.encr 1 24).wellFormed = true ∧ (Instr.decr 24 24).wellFormed = true ∧
    (Instr.encs 1 1).wellFormed = true ∧ (Instr.decs 8 8).wellFormed = true ∧ (Instr.trail 8).wellFormed = true ∧
    (Instr.regwr 0x3FF 0xFFFF).wellFormed = true ∧ (Instr.regrd 0x000).wellFormed = true := by decide

theorem witness_EncodeOfDecodeIsTheWord :
    decode (.command 0x801F) = some (.trail 31) ∧ decode (.bus (.read 0x3FF)) = some (.regrd 0x3FF) := by decide

theorem witness_NoTwoOpcodeRowsOverlap :
    (⟨.trail, 0x8000, 0xFFE0⟩ : OpcodeRow) ∈ opcodeTable ∧ (⟨.trail, 0x8000, 0xFFE0⟩ : OpcodeRow).selects 0x801F = true := by
  decide

/-- The four causes at the edges of their ranges, and no cause: fields, and the code. -/
theorem witness_CheckGivesTheFirstCause :
    ((opField 0x0FFF).toNat = 0 ∧ check 0x0FFF true = .illop) ∧ ((opField 0x9000).toNat = 9 ∧ check 0x9000 true = .illop) ∧
    ((opField 0x2C21).toNat = 2 ∧ rsvField 0x2C21 ≠ 0 ∧ check 0x2C21 false = .rsv) ∧
    ((opField 0x7001).toNat = 7 ∧ (0x7001 : Word).extractLsb 9 0 ≠ 0 ∧ check 0x7001 true = .rsv) ∧
    ((opField 0x8021).toNat = 8 ∧ (fromField 0x8021).toNat = 1 ∧ check 0x8021 false = .rsv) ∧
    ((opField 0x2039).toNat = 2 ∧ rsvField 0x2039 = 0 ∧ (fromField 0x2039).toNat = 1 ∧ (toField 0x2039).toNat = 25 ∧
      check 0x2039 false = .range) ∧
    ((opField 0x5029).toNat = 5 ∧ (toField 0x5029).toNat = 9 ∧ check 0x5029 true = .range) ∧
    ((opField 0x8000).toNat = 8 ∧ (toField 0x8000).toNat = 0 ∧ check 0x8000 false = .range) ∧
    ((opField 0x3318).toNat = 3 ∧ (fromField 0x3318).toNat = 24 ∧ (toField 0x3318).toNat = 24 ∧
      check 0x3318 false = .nokey ∧ check 0x3318 true = .none) ∧
    (State.reset.busy = false ∧ State.reset.ksv = false) := by decide

theorem witness_DataRegisterWrites :
    State.reset.busy = false ∧ (0x007 : Addr).toNat = (7 : Fin 8).val ∧ (0x008 : Addr).toNat = 0x008 + (0 : Fin 4).val ∧
    (0x00B : Addr).toNat = 0x008 + (3 : Fin 4).val ∧ (0x00C : Addr).toNat = 0x00C + (0 : Fin 4).val ∧
    (0x00F : Addr).toNat = 0x00C + (3 : Fin 4).val := by decide

theorem witness_BusyWriteIsDropped :
    (inFlight State.reset 0x6000).busy = true ∧ busyGuarded 0x000 ∧ busyGuarded 0x010 ∧ busyGuarded 0x012 ∧
    State.reset.busy = false ∧ ({ State.reset with bwe := true } : State).bwe = true ∧
    check 0x9000 State.reset.ksv ≠ .none := by unfold busyGuarded; decide

theorem witness_StatusWriteOnlyClearsBwe :
    (inFlight State.reset 0x1000).busy = true ∧ busyGuarded 0x00F := by unfold busyGuarded; decide

theorem witness_ReservedAndReadOnlyAddresses :
    (reservedAddr 0x015 ∧ reservedAddr 0x0FF ∧ reservedAddr 0x166 ∧ reservedAddr 0x1FF ∧ reservedAddr 0x300 ∧
      reservedAddr 0x3FF) ∧
    (readOnly 0x013 ∧ readOnly 0x014 ∧ readOnly 0x100 ∧ readOnly 0x165 ∧ readOnly 0x200 ∧ readOnly 0x2FF) :=
  ⟨by unfold reservedAddr; decide, by unfold readOnly; decide⟩

theorem witness_DataWritesAreIdempotent :
    (∃ t, exec (.regwr 0x00F 0xFFFF) State.reset = .next t) ∧ (0x00F : Addr).toNat ≤ 0x00F ∧
    (∃ t, exec (.regwr 0x012 0xFFFF) State.reset = .next t) ∧ State.reset.busy = false :=
  ⟨⟨_, rfl⟩, by decide, ⟨_, rfl⟩, by decide⟩

theorem witness_CommandWordIsSubmitted :
    keyed.busy = false ∧ check 0x2318 keyed.ksv = .none ∧ check 0x2319 keyed.ksv ≠ .none := by decide

theorem witness_RejectionIsPrecise : State.reset.busy = false ∧ check 0x2021 State.reset.ksv ≠ .none := by decide

/-- A pending LFWD, KSCHED and TRAIL; the windows' first and last addresses; SK not yet written; records below and at
TRAIL_COUNT. -/
theorem witness_RegisterReadByAddress :
    commandPending (inFlight State.reset 0x6000) .lfwd ∧ commandPending (inFlight State.reset 0x1000) .ksched ∧
    commandPending (inFlight keyed 0x8001) (.trail 1) ∧ ¬ (∃ c, commandPending State.reset c) ∧
    (0x000 : Addr).toNat = (0 : Fin 8).val ∧ (0x00B : Addr).toNat = 0x008 + (3 : Fin 4).val ∧
    (0x00C : Addr).toNat = 0x00C + (0 : Fin 4).val ∧
    (0x100 : Addr).toNat = 0x100 + 6 * (0 : Fin 17).val + (0 : Fin 6).val ∧
    (0x165 : Addr).toNat = 0x100 + 6 * (16 : Fin 17).val + (5 : Fin 6).val ∧
    (0x200 : Addr).toNat = 0x200 + 8 * (0 : Fin 32).val + (0 : Fin 8).val ∧
    (0x2FF : Addr).toNat = 0x200 + 8 * (31 : Fin 32).val + (7 : Fin 8).val ∧
    State.reset.skWritten = false ∧ keyed.skWritten = true ∧ State.reset.trailCount.toNat ≤ (0 : Fin 32).val ∧
    ¬ (({ keyed with trailCount := 32 } : State).trailCount.toNat ≤ (31 : Fin 32).val) ∧ reservedAddr 0x3FF :=
  ⟨⟨0x6000, by decide, by decide⟩, ⟨0x1000, by decide, by decide⟩, ⟨0x8001, by decide, by decide⟩,
    (by rintro ⟨c, w, h, -⟩; cases h), by unfold reservedAddr; decide⟩

theorem witness_StatusWordFields : (0x0010 : Word).getLsbD 4 = (0xFFFF : Word).getLsbD 4 := by decide

theorem witness_GroupsComeFromTheRegister : ∃ t, exec .ksched loaded = .next t := ⟨_, rfl⟩

theorem witness_EncrAppliesTheRounds : 1 ≤ 1 ∧ 1 ≤ 24 ∧ 24 ≤ 24 ∧ keyed.ksv = true := by decide

theorem witness_DecrAppliesTheInverseRounds : 1 ≤ 24 ∧ 24 ≤ 24 ∧ 24 ≤ 24 ∧ keyed.ksv = true := by decide

theorem witness_SubkeyGroupsServeTheirBranchAndStep : 1 ≤ 8 ∧ 8 ≤ 8 ∧ 2 < 3 := by decide

theorem witness_EncsAppliesTheSteps : 1 ≤ 1 ∧ 1 ≤ 8 ∧ 8 ≤ 8 ∧ keyed.ksv = true ∧ keyedL.ksv = true := by decide

theorem witness_DecsAppliesTheInverseSteps : 1 ≤ 8 ∧ 8 ≤ 8 ∧ 8 ≤ 8 ∧ keyed.ksv = true ∧ keyedL.ksv = true := by decide

/-- TRAIL 1: records 0 and 2 are of rounds, record 3 of the layer, records 4 and 31 stand from TRAIL_COUNT on. -/
theorem witness_TrailCompletes :
    1 ≤ 1 ∧ 1 ≤ 8 ∧ keyed.ksv = true ∧
    (let t := after (exec (.trail 1) keyed)
     (0 < t.trailCount.toNat ∧ 0 % 4 < 3) ∧ (2 < t.trailCount.toNat ∧ 2 % 4 < 3) ∧
     (3 < t.trailCount.toNat ∧ 3 % 4 = 3) ∧ t.trailCount.toNat ≤ 4 ∧ t.trailCount.toNat ≤ 31) := by decide +kernel

/-- TRAIL 2: its record 4 is of round 4, in step 2; its record 0 of round 1, in step 1. -/
theorem witness_TrailAgreesWithDirectEncryption :
    1 ≤ 2 ∧ 2 ≤ 8 ∧ keyed.ksv = true ∧
    (let t := after (exec (.trail 2) keyed)
     exec (.trail 2) keyed = .next t ∧
     (4 < t.trailCount.toNat ∧ t.trail[4].kind = 1 ∧ t.trail[4].round.toNat = 4) ∧
     (0 < t.trailCount.toNat ∧ t.trail[0].kind = 1 ∧ t.trail[0].round.toNat = 1)) :=
  ⟨by decide, by decide, by decide, rfl, by decide +kernel, by decide +kernel⟩

theorem witness_CommandsWriteOnlyTheirWriteSet :
    (Instr.ksched.isCommand = true ∧ Instr.ksched.wellFormed = true ∧ Instr.ksched.usesKey = false) ∧
    ((Instr.trail 8).isCommand = true ∧ (Instr.trail 8).wellFormed = true ∧ keyed.ksv = true) ∧
    ((Instr.decs 1 8).isCommand = true ∧ (Instr.decs 1 8).wellFormed = true) := by decide

theorem witness_UnacceptableCommandIsRejected :
    (Instr.encr 1 25).wellFormed = false ∧ (Instr.trail 0).wellFormed = false ∧
    ((Instr.encs 1 8).wellFormed = true ∧ (Instr.encs 1 8).usesKey = true ∧ State.reset.ksv = false) := by decide

theorem witness_BranchesAreIndependent : Branch.b0 ≠ Branch.b1 := by decide

theorem witness_RoundCommandsRoundTrip : 1 ≤ 3 ∧ 3 ≤ 24 ∧ 24 ≤ 24 ∧ keyed.ksv = true := by decide

theorem witness_StepCommandsRoundTrip : 1 ≤ 1 ∧ 1 ≤ 8 ∧ 8 ≤ 8 ∧ keyed.ksv = true ∧ keyedL.ksv = true := by decide

theorem witness_StepCommandsCompose :
    (1 ≤ 1 ∧ 1 ≤ 7 ∧ 7 < 8 ∧ 8 ≤ 8 ∧ keyed.ksv = true) ∧ (1 ≤ 7 ∧ 7 ≤ 7 ∧ keyedL.ksv = true) := by decide

theorem witness_FinalLMattersOnlyAtStepEight :
    (Instr.encs 1 7).isCommand = true ∧ (∀ s1, Instr.encs 1 7 ≠ .encs s1 8) ∧ (∀ s1, Instr.encs 1 7 ≠ .decs s1 8) ∧
    Instr.encs 1 7 ≠ .trail 8 ∧ ∃ t, exec (.encs 1 7) keyed = .next t :=
  ⟨by decide, by simp, by simp, by decide, _, rfl⟩

/-- The two clauses: commands that keep TRAIL (another command, a TRAIL out of range, a TRAIL without a schedule), and TRAIL
at both ends of its range. -/
theorem witness_NoCommandReadsTheTrail :
    ((∀ n, Instr.lfwd ≠ .trail n) ∧ (Instr.trail 9).wellFormed = false ∧ State.reset.ksv = false) ∧
    ((Instr.trail 1).isCommand = true ∧ (Instr.trail 1).wellFormed = true ∧ (Instr.trail 8).wellFormed = true ∧
      keyed.ksv = true) ∧
    (∃ t, exec .lfwd keyed = .next t) ∧ (∃ t, exec (.trail 9) keyed = .next t) ∧ ∃ t, exec (.trail 8) keyed = .next t :=
  ⟨⟨by simp, by decide, by decide⟩, by decide, ⟨_, rfl⟩, ⟨_, rfl⟩, _, rfl⟩

theorem witness_NothingReadsKreg : ∃ t, step engineTurn = .next t := ⟨_, rfl⟩

theorem witness_StepRunsTheFetchedInstruction :
    (engineTurn.mover = .engine ∧ engineTurn.pending = some 0x6000 ∧ decode (.command 0x6000) = some .lfwd) ∧
    (let s := running [.bus (.write 0x3FF 1), .bus (.read 0x000)] []
     s.mover = .host ∧ s.program = .bus (.write 0x3FF 1) :: [.bus (.read 0x000)] ∧
       decode (.bus (.write 0x3FF 1)) = some (.regwr 0x3FF 1)) := by decide

theorem witness_PollRepeatsItsRead :
    let s := running [waitOp, .bus (.read 0x008)] [.host]
    s.mover = .host ∧ s.program = .poll 0x011 0x0001 0x0000 :: [.bus (.read 0x008)] := by decide

theorem witness_IdleAgentsChangeNothing :
    ((running [] [.engine]).mover = .engine ∧ (running [] [.engine]).pending = none) ∧
    (State.reset.mover = .host ∧ State.reset.program = []) := by decide

theorem witness_ResetStep : ({ inFlight keyed 0x4028 with schedule := [.reset] } : State).mover = .reset := by decide

/-- The classes of addresses at their edges. -/
theorem witness_ReadsRightAfterReset :
    (running [] [.reset]).mover = .reset ∧ (0x000 : Addr).toNat ≤ 0x013 ∧ (0x013 : Addr).toNat ≤ 0x013 ∧
    (0x100 ≤ (0x100 : Addr).toNat ∧ (0x165 : Addr).toNat ≤ 0x165) ∧
    (0x200 ≤ (0x200 : Addr).toNat ∧ (0x2FF : Addr).toNat ≤ 0x2FF) ∧ reservedAddr 0x015 ∧ reservedAddr 0x3FF := by
  unfold reservedAddr; decide

theorem witness_BusyChangesOnlyByItsEvents :
    (∃ t, step (running [.bus (.write 0x010 0x6000)] []) = .next t) ∧
    (hostWrites (running [.bus (.write 0x010 0x6000)] []) 0x010 0x6000 ∧
      (running [.bus (.write 0x010 0x6000)] []).busy = false) ∧
    (∃ t, step engineTurn = .next t ∧ t.busy ≠ engineTurn.busy) ∧ engineRuns engineTurn .lfwd :=
  ⟨⟨_, rfl⟩, ⟨⟨by decide, _, rfl⟩, by decide⟩, ⟨_, rfl, by decide⟩, by decide, 0x6000, by decide, by decide⟩

/-- Reset meets the invariant, whatever the host's program and the order of moves. -/
theorem running_inv (program : List HostOp) (schedule : List Agent) : Inv (running program schedule) where
  pendingAccepted := by rintro w ⟨⟩
  errHasCode := by simp [running, State.reset]
  notDoneAndErr := by simp [running, State.reset]
  scheduleValid := by simp [running, State.reset]
  countInRange := by simp [running, State.reset]

/-- A state with a command in flight meets it too. -/
theorem engineTurn_inv : Inv engineTurn where
  pendingAccepted := by
    intro w h
    have hw : w = 0x6000 := (Option.some.inj ((show engineTurn.pending = some 0x6000 by decide).symm.trans h)).symm
    subst hw
    exact ⟨by decide, ⟨.lfwd, by decide, by decide, by decide⟩, by decide, by decide, by decide⟩
  errHasCode := by decide
  notDoneAndErr := by decide
  scheduleValid := by intro h; exact absurd h (by decide)
  countInRange := by decide

theorem witness_DoneChangesOnlyByItsEvents :
    (Inv engineTurn ∧ (∃ t, step engineTurn = .next t ∧ t.done ≠ engineTurn.done) ∧ engineRuns engineTurn .lfwd) ∧
    (let s := running [.bus (.write 0x010 0x9000)] []
     Inv s ∧ hostWrites s 0x010 0x9000 ∧ s.busy = false ∧ ∃ t, step s = .next t) :=
  ⟨⟨engineTurn_inv, ⟨_, rfl, by decide⟩, by decide, 0x6000, by decide, by decide⟩,
    running_inv _ _, ⟨by decide, _, rfl⟩, by decide, _, rfl⟩

theorem witness_ErrorChangesOnlyOnCommandWords :
    (let s := running [.bus (.write 0x010 0x9000)] []
     Inv s ∧ hostWrites s 0x010 0x9000 ∧ s.busy = false ∧ ∃ t, step s = .next t ∧ t.err ≠ s.err) ∧
    (Inv (running [] [.reset]) ∧ (running [] [.reset]).mover = .reset ∧ ∃ t, step (running [] [.reset]) = .next t) :=
  ⟨⟨running_inv _ _, ⟨by decide, _, rfl⟩, by decide, _, rfl, by decide⟩, running_inv _ _, by decide, _, rfl⟩

/-- KSCHED on the engine's turn; reset; a KEY write, first and last; a KSCHED word; and a keyed word while KSV = 0. -/
theorem witness_KsvChangesOnlyByItsEvents :
    (engineRuns { inFlight loaded 0x1000 with schedule := [.engine] } .ksched ∧
      ∃ t, step { inFlight loaded 0x1000 with schedule := [.engine] } = .next t) ∧
    ((running [] [.reset]).mover = .reset ∧ ∃ t, step (running [] [.reset]) = .next t) ∧
    (let s := { keyed with program := [.bus (.write 0x007 5)] }
     hostWrites s (keyAddr 7) 5 ∧ s.busy = false ∧ s.ksv = true ∧ ∃ t, step s = .next t ∧ t.ksv = false) ∧
    (let s := { keyed with program := [.bus (.write 0x010 0x1000)] }
     hostWrites s 0x010 0x1000 ∧ s.busy = false ∧ ∃ t, step s = .next t) ∧
    (let s := running [.bus (.write 0x010 0x8008)] []
     hostWrites s 0x010 0x8008 ∧ s.busy = false ∧ s.ksv = false ∧ decode (.command 0x8008) = some (.trail 8) ∧
       (Instr.trail 8).wellFormed = true ∧ (Instr.trail 8).usesKey = true ∧ ∃ t, step s = .next t) :=
  ⟨⟨⟨by decide, 0x1000, by decide, by decide⟩, _, rfl⟩, ⟨by decide, _, rfl⟩,
    ⟨⟨by decide, _, rfl⟩, by decide, by decide, _, rfl, by decide⟩, ⟨⟨by decide, _, rfl⟩, by decide, _, rfl⟩,
    ⟨by decide, _, rfl⟩, by decide, by decide, by decide, by decide, by decide, _, rfl⟩

theorem witness_BweChangesOnlyByItsEvents :
    (let s := { inFlight State.reset 0x6000 with program := [.bus (.write 0x008 1)], schedule := [.host] }
     s.bwe = false ∧ ∃ t, step s = .next t ∧ t.bwe = true) ∧
    (let s := { running [.bus (.write 0x011 0x0010)] [] with bwe := true }
     s.bwe = true ∧ ∃ t, step s = .next t ∧ t.bwe = false) :=
  ⟨⟨by decide, _, rfl, by decide⟩, by decide, _, rfl, by decide⟩

theorem witness_RegistersChangeOnlyByTheirWriters :
    engineTurn.mover ≠ .reset ∧ (∃ t, step engineTurn = .next t) ∧
    (let s := running [.bus (.write 0x012 1)] []
     s.mover ≠ .reset ∧ ∃ t, step s = .next t ∧ t.finalL ≠ s.finalL) :=
  ⟨by decide, ⟨_, rfl⟩, by decide, _, rfl, by decide⟩

theorem witness_HostCannotDisturbACommandInFlight :
    let s := { inFlight State.reset 0x6000 with program := [.bus (.write 0x010 0x6000)], schedule := [.host] }
    s.busy = true ∧ s.mover = .host ∧ ∃ t, step s = .next t :=
  ⟨by decide, by decide, _, rfl⟩

theorem witness_BothOrdersOfARace :
    let s := { inFlight State.reset 0x6000 with program := [.bus (.write 0x008 0xAAAA)] }
    s.pending = some 0x6000 ∧ decode (.command 0x6000) = some .lfwd ∧
      s.program = .bus (.write 0x008 0xAAAA) :: [] ∧ busyGuarded 0x008 ∧ busyGuarded 0x010 ∧ busyGuarded 0x012 := by
  unfold busyGuarded; decide

theorem witness_StepKeepsControlInvariant : Inv engineTurn ∧ ∃ t, step engineTurn = .next t := ⟨engineTurn_inv, _, rfl⟩

/-- TRAIL 1 in flight over a buffer with no valid record. -/
theorem witness_StepKeepsTrailRecords :
    let s := { inFlight keyed 0x8001 with schedule := [.engine] }
    TrailInv s ∧ ∃ t, step s = .next t :=
  ⟨⟨by decide, fun n h => absurd h (Nat.not_lt_zero _)⟩, _, rfl⟩

theorem witness_NoRunStops : Inv (running [.bus (.write 0x010 0x6000)] []) := running_inv _ _

theorem witness_AcceptedCommandCompletes :
    Inv engineTurn ∧ engineTurn.busy = true ∧ Agent.reset ∉ engineTurn.schedule := ⟨engineTurn_inv, by decide, by decide⟩

theorem witness_ChangingTheKey : keyed.busy = false ∧ keyed.skWritten = true := by decide

end Sys2Proof.Tests
end

section
/-! SUPPORT. One step of the machine, said once: what the agent's move makes of the state, and what it does to the
registers STATUS is read from (rules R24 to R30).  Every statement about a flag is derived from these lemmas. -/

namespace Sys2Proof.Machine

open Sys2Proof.Safety Sys2Proof.Statements

/-- A step answers at most one state. -/
theorem next_unique {o : Host.Outcome State Fault Refusal} {t u : State} (ht : o = .next t) (hu : o = .next u) : t = u :=
  Host.Outcome.next.inj (ht.symm.trans hu)

/-! ### A reset -/

/-- A reset's turn leaves the engine as after power-on, whatever was pending (rules R114, R115). -/
theorem step_of_reset {s : State} (hm : s.mover = .reset) : step s = .next s.takeTurn.assertReset := by
  simp [step, State.fetch, State.turnWithoutFetch, hm]

theorem eq_of_reset {s t : State} (hstep : step s = .next t) (hm : s.mover = .reset) : t = s.takeTurn.assertReset :=
  next_unique hstep (step_of_reset hm)

/-! ### What the engine's turn does -/

/-- A command's effect leaves the control registers and the host's side alone; KSV alone is set, by KSCHED (rule R64). -/
structure EffectFrame (i : Instr) (s u : State) : Prop where
  key : u.key = s.key
  cmd : u.cmd = s.cmd
  pending : u.pending = s.pending
  done : u.done = s.done
  err : u.err = s.err
  ksv : u.ksv = (decide (i = .ksched) || s.ksv)
  bwe : u.bwe = s.bwe
  ecode : u.ecode = s.ecode
  finalL : u.finalL = s.finalL
  rdata : u.rdata = s.rdata
  unspecDrawn : u.unspecDrawn = s.unspecDrawn
  program : u.program = s.program
  schedule : u.schedule = s.schedule

/-- Every command's arm is the range test, the key test, then an effect of its own (rules R35, R64). -/
theorem exec_eq_runCommand {i : Instr} (s : State) (h : i.isCommand = true) :
    ∃ effect : State → State, exec i s = .next (runCommand i.wellFormed i.usesKey s effect) ∧
      EffectFrame i s (effect s) := by
  cases i with
  | regwr a v => cases h
  | regrd a => cases h
  | ksched | encr | decr | encs | decs | lfwd | linv | trail => exact ⟨_, rfl, by constructor <;> rfl⟩

/-- What the engine's turn on a command answers: the command's effect and completion, or a rejection. -/
theorem exec_command_cases {i : Instr} (s : State) (h : i.isCommand = true) :
    (∃ u, EffectFrame i s u ∧ exec i s = .next u.complete) ∨
    (i.wellFormed = false ∧ exec i s = .next (s.reject .range)) ∨
    (i.usesKey = true ∧ s.ksv = false ∧ exec i s = .next (s.reject .nokey)) := by
  obtain ⟨effect, hexec, hframe⟩ := exec_eq_runCommand s h
  rw [hexec]
  rcases runCommand_cases i.wellFormed i.usesKey s effect with ⟨-, -, hrun⟩ | ⟨hwf, hrun⟩ | ⟨-, hk, hksv, hrun⟩ <;>
    rw [hrun]
  · exact .inl ⟨_, hframe, rfl⟩
  · exact .inr (.inl ⟨hwf, rfl⟩)
  · exact .inr (.inr ⟨hk, hksv, rfl⟩)

/-- The engine's turn on its pending command is that command's arm. -/
theorem step_of_engineRuns {s : State} {i : Instr} (h : engineRuns s i) : step s = exec i s.takeTurn := by
  obtain ⟨hm, w, hp, hd⟩ := h
  simp [step, State.fetch, State.afterFetch, hm, hp, hd]

theorem isCommand_of_engineRuns {s : State} {i : Instr} (h : engineRuns s i) : i.isCommand = true :=
  let ⟨_, _, _, hd⟩ := h
  isCommand_of_decode hd

/-- Under the control invariant the engine's turn runs its command to completion (rule R35): the tests made at
acceptance pass again. -/
theorem step_completes {s : State} {i : Instr} (hinv : Inv s) (h : engineRuns s i) :
    ∃ u, EffectFrame i s.takeTurn u ∧ step s = .next u.complete := by
  have ⟨_, w, hp, hd⟩ := h
  obtain ⟨j, hj, hwf, hkey⟩ := (hinv.pendingAccepted w hp).legal
  obtain rfl : i = j := Option.some.inj (hd.symm.trans hj)
  rw [step_of_engineRuns h]
  rcases exec_command_cases s.takeTurn (isCommand_of_engineRuns h) with hc | ⟨hwf', -⟩ | ⟨hk, hksv, -⟩
  · exact hc
  · simp [hwf] at hwf'
  · simp [hkey hk] at hksv

/-! ### What the host's turn does -/

@[simp] theorem exec_regwr (a : Addr) (v : Word) (s : State) : exec (.regwr a v) s = .next (s.regWrite a v) := rfl

@[simp] theorem exec_regrd (a : Addr) (s : State) : exec (.regrd a) s = .next (s.returnValue (s.regRead a)) := rfl

/-- The host's turn at a write of v to address a is that write (rules R18, R62). -/
theorem step_of_hostWrites {s : State} {a : Addr} {v : Word} (h : hostWrites s a v) :
    step s = .next (s.takeTurn.popProgram.regWrite a v) := by
  obtain ⟨hm, rest, hp⟩ := h
  simp [step, State.fetch, State.afterFetch, State.polling, State.settlePoll, hm, hp, decodeBus]

/-- Nothing of the engine differs: only what stands outside it, the host's side and the turns, may. -/
def SameEngine (s t : State) : Prop :=
  t = { s with rdata := t.rdata, unspecDrawn := t.unspecDrawn, program := t.program, schedule := t.schedule }

theorem sameEngine_returnValue (s : State) (r : ReadValue) : SameEngine s (s.returnValue r) := by
  cases r <;> rfl

theorem SameEngine.settlePoll {s t : State} (h : SameEngine s t) (poll : Option (Word × Word)) :
    SameEngine s (t.settlePoll poll) := by
  unfold State.settlePoll
  split
  · split
    · unfold SameEngine at h ⊢
      rw [h]
      rfl
    · exact h
  · exact h

theorem SameEngine.of_takeTurn {s t : State} (h : SameEngine s.takeTurn t) : SameEngine s t := h

/-- A step that answers a state is a reset, the engine's turn on a command, a host write, or changes nothing of the
engine (an idle turn, a read, a poll). -/
theorem step_next_cases {s t : State} (h : step s = .next t) :
    (s.mover = .reset ∧ t = s.takeTurn.assertReset) ∨
    (∃ i, engineRuns s i ∧ exec i s.takeTurn = .next t) ∨
    (∃ a v, hostWrites s a v ∧ t = s.takeTurn.popProgram.regWrite a v) ∨
    SameEngine s t := by
  rcases step_cases s with ⟨hm, hs⟩ | ⟨-, -, hs⟩ | ⟨-, -, hs⟩ | ⟨w, i, hm, hp, hd, hs⟩ | ⟨w, -, -, -, hs⟩ |
    ⟨op, rest, hm, hp, hs⟩ | ⟨a, mask, value, rest, -, -, hs⟩
  case inr.inr.inr.inr.inl => cases hs.symm.trans h
  case inr.inr.inr.inl => exact .inr (.inl ⟨i, ⟨hm, w, hp, hd⟩, hs.symm.trans h⟩)
  case inr.inr.inr.inr.inr.inl =>
    cases op with
    | write a v =>
      have hw : hostWrites s a v := ⟨hm, rest, hp⟩
      exact .inr (.inr (.inl ⟨a, v, hw, next_unique h (step_of_hostWrites hw)⟩))
    | read a =>
      obtain rfl := next_unique h hs
      exact .inr (.inr (.inr (sameEngine_returnValue _ _)))
  all_goals obtain rfl := next_unique h hs
  · exact .inl ⟨hm, rfl⟩
  · exact .inr (.inr (.inr rfl))
  · exact .inr (.inr (.inr rfl))
  · exact .inr (.inr (.inr ((sameEngine_returnValue _ _).settlePoll _).of_takeTurn))

/-! ### The command registers: PENDING, DONE, ERR and ECODE -/

/-- Two states agree on the registers that a command's submission and completion set (rules R98, R100, R35). -/
structure SameCommandRegs (s t : State) : Prop where
  pending : t.pending = s.pending
  done : t.done = s.done
  err : t.err = s.err
  ecode : t.ecode = s.ecode

theorem SameEngine.sameCommandRegs {s t : State} (h : SameEngine s t) : SameCommandRegs s t := by
  unfold SameEngine at h
  rw [h]
  exact ⟨rfl, rfl, rfl, rfl⟩

theorem SameEngine.ksv_eq {s t : State} (h : SameEngine s t) : t.ksv = s.ksv := by
  unfold SameEngine at h
  rw [h]

theorem SameCommandRegs.busy {s t : State} (h : SameCommandRegs s t) : t.busy = s.busy := by
  simp [State.busy, h.pending]

/-- A host write submits a word, or leaves the command registers as they are (rules R24 to R29, R62). -/
theorem regWrite_commandRegs (s : State) (a : Addr) (v : Word) :
    (s.busy = false ∧ a = 0x010 ∧ s.regWrite a v = s.writeCmd v) ∨ SameCommandRegs s (s.regWrite a v) := by
  rcases regWrite_cases s a v with ⟨-, h⟩ | ⟨-, -, h⟩ | ⟨-, i, -, h⟩ | ⟨-, i, -, h⟩ | ⟨-, i, -, h⟩ | ⟨-, -, h⟩ |
    ⟨hb, ha, h⟩ | ⟨-, h⟩
  case inr.inr.inr.inr.inr.inr.inl => exact .inl ⟨hb, ha, h⟩
  all_goals
    rw [h]
    exact .inr ⟨rfl, rfl, rfl, rfl⟩

/-- Of all steps only a reset, the engine's turn on a command and a command word written while BUSY = 0 change the
command registers. -/
theorem step_commandRegs {s t : State} (h : step s = .next t) :
    (s.mover = .reset ∧ t = s.takeTurn.assertReset) ∨
    (∃ i, engineRuns s i ∧ exec i s.takeTurn = .next t) ∨
    (∃ v, s.busy = false ∧ hostWrites s 0x010 v ∧ t = s.takeTurn.popProgram.writeCmd v) ∨
    SameCommandRegs s t := by
  rcases step_next_cases h with hr | he | ⟨a, v, hw, ht⟩ | hs
  · exact .inl hr
  · exact .inr (.inl he)
  · rcases regWrite_commandRegs s.takeTurn.popProgram a v with ⟨hb, rfl, hc⟩ | hc
    · exact .inr (.inr (.inl ⟨v, hb, hw, ht.trans hc⟩))
    · exact .inr (.inr (.inr (ht ▸ ⟨hc.pending, hc.done, hc.err, hc.ecode⟩)))
  · exact .inr (.inr (.inr hs.sameCommandRegs))

/-! ### What a submitted word leaves in STATUS -/

@[simp] theorem writeCmd_busy (s : State) (v : Word) :
    (s.writeCmd v).busy = true ↔ check v s.ksv = .none := by
  rcases writeCmd_cases s v with ⟨hc, h⟩ | ⟨hc, h⟩ <;> simp [h, hc]

@[simp] theorem writeCmd_done (s : State) (v : Word) : (s.writeCmd v).done = false := by
  rcases writeCmd_cases s v with ⟨-, h⟩ | ⟨-, h⟩ <;> simp [h]

@[simp] theorem writeCmd_err (s : State) (v : Word) :
    (s.writeCmd v).err = true ↔ check v s.ksv ≠ .none := by
  rcases writeCmd_cases s v with ⟨hc, h⟩ | ⟨hc, h⟩ <;> simp [h, hc]

@[simp] theorem writeCmd_ecode (s : State) (v : Word) : (s.writeCmd v).ecode = check v s.ksv := by
  rcases writeCmd_cases s v with ⟨hc, h⟩ | ⟨-, h⟩
  · rw [h, hc]; rfl
  · rw [h]; rfl

/-- A command word the host writes while BUSY = 0 is submitted (rules R22, R62). -/
theorem step_of_submission {s : State} {v : Word} (h : hostWrites s 0x010 v) (hb : s.busy = false) :
    step s = .next (s.takeTurn.popProgram.writeCmd v) := by
  obtain ⟨-, -, -, -, hcmd⟩ := regWrite_idle (s := s.takeTurn.popProgram) v hb
  rw [step_of_hostWrites h, hcmd]

theorem eq_of_submission {s t : State} {v : Word} (hstep : step s = .next t) (h : hostWrites s 0x010 v)
    (hb : s.busy = false) : t = s.takeTurn.popProgram.writeCmd v :=
  next_unique hstep (step_of_submission h hb)

/-! ### The acceptance check by the decoded command, and KSV -/

/-- A word that decodes is checked for its operands and its key alone (rule R99). -/
theorem check_of_decode {v : Word} {i : Instr} (ksv : Bool) (h : decode (.command v) = some i) :
    check v ksv = if !i.wellFormed then .range else if !ksv && i.usesKey then .nokey else .none := by
  have hd : decodeCommand v = some i := h
  rw [decodeCommand_eq] at hd
  unfold check
  cases hop : operationOf (opField v) with
  | none => simp [hop] at hd
  | some op =>
    simp only [hop] at hd ⊢
    split at hd
    · cases hd
    · obtain rfl := Option.some.inj hd
      rw [if_neg ‹_›]
      cases op <;> rfl

/-- The one word with KSCHED's OP that passes the check (rules R55, R99). -/
theorem eq_of_check_ksched {v : Word} {ksv : Bool} (hop : opField v = 0x1) (hc : check v ksv = .none) :
    v = 0x1000 := by
  have hrsv : (rsvField v != 0 || operandBitsReserved .ksched v) = false := by
    by_contra hb
    have hksched : operationOf (opField v) = some .ksched := by rw [hop]; rfl
    simp only [check, hksched] at hc
    rw [if_pos (Bool.eq_true_of_not_eq_false hb)] at hc
    cases hc
  have hz : rsvField v = 0 ∧ fromField v = 0 ∧ toField v = 0 := by simpa [operandBitsReserved] using hrsv
  obtain ⟨hr, hf, ht⟩ := hz
  exact word_ext (hop.trans (by decide)) (hr.trans (by decide)) (hf.trans (by decide)) (ht.trans (by decide))

/-- The word 0x1000 is accepted in every state, and it clears KSV (rules R27, R98). -/
theorem writeCmd_ksched_ksv (s : State) : (s.writeCmd 0x1000).ksv = false := by
  have hc : check 0x1000 s.ksv = .none := by cases s.ksv <;> decide
  rcases writeCmd_cases s 0x1000 with ⟨-, h⟩ | ⟨hn, -⟩
  · rw [h, State.accept_ksv, if_pos (by decide)]
  · exact absurd hc hn

/-- A submitted word leaves KSV as it is, or it is KSCHED's and clears it (rules R27, R98). -/
theorem writeCmd_ksv (s : State) (v : Word) :
    (s.writeCmd v).ksv = s.ksv ∨ (v = 0x1000 ∧ (s.writeCmd v).ksv = false) := by
  rcases writeCmd_cases s v with ⟨hc, h⟩ | ⟨-, h⟩
  · by_cases hop : opField v = 0x1
    · exact .inr ⟨eq_of_check_ksched hop hc, by rw [h, State.accept_ksv, if_pos hop]⟩
    · exact .inl (by rw [h, State.accept_ksv, if_neg hop]; rfl)
  · exact .inl (by rw [h]; rfl)

/-- A host write leaves KSV as it is, or it is an accepted KEY write or KSCHED's word and clears it (rule R27). -/
theorem regWrite_ksv (s : State) (a : Addr) (v : Word) :
    (s.regWrite a v).ksv = s.ksv ∨
    (s.busy = false ∧ ((∃ i, a = keyAddr i) ∨ a = 0x010 ∧ v = 0x1000) ∧ (s.regWrite a v).ksv = false) := by
  rcases regWrite_cases s a v with ⟨-, h⟩ | ⟨-, -, h⟩ | ⟨hb, i, ha, h⟩ | ⟨-, i, -, h⟩ | ⟨-, i, -, h⟩ | ⟨-, -, h⟩ |
    ⟨hb, ha, h⟩ | ⟨-, h⟩
  case inr.inr.inl => exact .inr ⟨hb, .inl ⟨i, ha⟩, h ▸ rfl⟩
  case inr.inr.inr.inr.inr.inr.inl =>
    rw [h]
    exact (writeCmd_ksv s v).imp id fun ⟨hv, hk⟩ => ⟨hb, .inr ⟨ha, hv⟩, hk⟩
  all_goals
    rw [h]
    exact .inl rfl

/-- The engine's turn on a command leaves KSV as it is, or it is a KSCHED and sets it (rule R27). -/
theorem exec_command_ksv {i : Instr} {s t : State} (hi : i.isCommand = true) (h : exec i s = .next t) :
    t.ksv = s.ksv ∨ (i = .ksched ∧ t.ksv = true) := by
  rcases exec_command_cases s hi with ⟨u, hu, he⟩ | ⟨-, he⟩ | ⟨-, -, he⟩ <;>
    obtain rfl := next_unique h he
  · by_cases hk : i = .ksched
    · exact .inr ⟨hk, by simp [hu.ksv, hk]⟩
    · exact .inl (by simp [hu.ksv, hk])
  · exact .inl rfl
  · exact .inl rfl

/-- Every way a step can change KSV (rule R27). -/
theorem step_ksv {s t : State} (h : step s = .next t) :
    t.ksv = s.ksv ∨ (engineRuns s .ksched ∧ t.ksv = true) ∨ (s.mover = .reset ∧ t.ksv = false) ∨
    (s.busy = false ∧ ((∃ i v, hostWrites s (keyAddr i) v) ∨ hostWrites s 0x010 0x1000) ∧ t.ksv = false) := by
  rcases step_next_cases h with ⟨hm, rfl⟩ | ⟨i, he, hx⟩ | ⟨a, v, hw, rfl⟩ | hs
  · exact .inr (.inr (.inl ⟨hm, rfl⟩))
  · rcases exec_command_ksv (isCommand_of_engineRuns he) hx with hk | ⟨rfl, hk⟩
    · exact .inl hk
    · exact .inr (.inl ⟨he, hk⟩)
  · rcases regWrite_ksv s.takeTurn.popProgram a v with hk | ⟨hb, ⟨i, rfl⟩ | ⟨rfl, rfl⟩, hk⟩
    · exact .inl hk
    · exact .inr (.inr (.inr ⟨hb, .inl ⟨i, v, hw⟩, hk⟩))
    · exact .inr (.inr (.inr ⟨hb, .inr hw, hk⟩))
  · exact .inl hs.ksv_eq

end Sys2Proof.Machine
end

section
/-! Who changes STATUS (10_state.md, rules R24 to R30): the obligations of the flags. -/

namespace Sys2Proof.Proofs

open Sys2Proof.Machine Sys2Proof.Safety Sys2Proof.Statements

/-- Settles O46, from the inversion of a step on the command registers. -/
theorem busyChangesOnlyByItsEvents : Obligations.BusyChangesOnlyByItsEvents := by
  intro s t hstep
  refine ⟨fun v hw hb => ?_, fun i he => ?_, fun hne => ?_⟩
  · rw [eq_of_submission hstep hw hb]
    exact writeCmd_busy _ v
  · obtain ⟨u, hu, hp⟩ := exec_command_next s.takeTurn (isCommand_of_engineRuns he)
    obtain rfl := next_unique hstep ((step_of_engineRuns he).trans hu)
    exact t.busy_eq_false.mpr hp
  · rcases step_commandRegs hstep with ⟨hm, -⟩ | ⟨i, he, -⟩ | ⟨v, hb, hw, rfl⟩ | hsame
    · exact .inl hm
    · exact .inr (.inl ⟨i, he⟩)
    · have hset : (s.takeTurn.popProgram.writeCmd v).busy = true := by simpa [hb] using hne
      exact .inr (.inr ⟨hb, v, hw, (writeCmd_busy s.takeTurn.popProgram v).mp hset⟩)
    · exact absurd hsame.busy hne

/-- Settles O47: under the control invariant the engine's turn completes its command, and a submitted word clears DONE
whatever its check says. -/
theorem doneChangesOnlyByItsEvents : Obligations.DoneChangesOnlyByItsEvents := by
  intro s t hinv hstep
  refine ⟨fun i he => ?_, fun v hw hb => ?_, fun hne => ?_⟩
  · obtain ⟨u, -, hu⟩ := step_completes hinv he
    obtain rfl := next_unique hstep hu
    exact u.complete_done
  · rw [eq_of_submission hstep hw hb]
    exact writeCmd_done _ v
  · rcases step_commandRegs hstep with ⟨hm, -⟩ | ⟨i, he, -⟩ | ⟨v, hb, hw, -⟩ | hsame
    · exact .inl hm
    · exact .inr (.inl ⟨i, he⟩)
    · exact .inr (.inr ⟨hb, v, hw⟩)
    · exact absurd hsame.done hne

/-- Settles O48: under the control invariant a completion is no rejection, so it leaves ERR and ECODE. -/
theorem errorChangesOnlyOnCommandWords : Obligations.ErrorChangesOnlyOnCommandWords := by
  refine ⟨fun s t hinv hstep => ⟨fun v hw hb => ?_, fun hm => ?_, fun hne => ?_⟩, rfl, rfl, rfl, rfl, rfl, ?_⟩
  · rw [eq_of_submission hstep hw hb]
    exact ⟨writeCmd_ecode _ v, writeCmd_err _ v⟩
  · rw [eq_of_reset hstep hm]
    exact ⟨rfl, rfl⟩
  · rcases step_commandRegs hstep with ⟨hm, -⟩ | ⟨i, he, -⟩ | ⟨v, hb, hw, -⟩ | hsame
    · exact .inl hm
    · obtain ⟨u, hframe, hu⟩ := step_completes hinv he
      obtain rfl := next_unique hstep hu
      have herr : u.err = s.err := hframe.err
      have hecode : u.ecode = s.ecode := hframe.ecode
      exact absurd hne (by simp [herr, hecode])
    · exact .inr ⟨hb, v, hw⟩
    · exact absurd hne (by simp [hsame.err, hsame.ecode])
  · intro e
    cases e <;> decide

/-- Settles O49, from the inversion of a step on KSV and the check of a word that decodes. -/
theorem ksvChangesOnlyByItsEvents : Obligations.KsvChangesOnlyByItsEvents := by
  intro s t hstep
  refine ⟨fun he => ?_, fun hm => ?_, fun i v hw hb => ?_, fun hw hb => ?_, fun ht hs => ?_, fun ht hs => ?_,
    fun v i hw hb hs hd hwf hk => ?_⟩
  · obtain rfl := next_unique hstep (step_of_engineRuns he)
    rfl
  · rw [eq_of_reset hstep hm]
    rfl
  · obtain ⟨hkey, -⟩ := regWrite_idle (s := s.takeTurn.popProgram) v hb
    rw [step_of_hostWrites hw, hkey i] at hstep
    obtain rfl := Host.Outcome.next.inj hstep
    rfl
  · rw [eq_of_submission hstep hw hb]
    exact writeCmd_ksched_ksv _
  · rcases step_ksv hstep with h | ⟨he, -⟩ | ⟨-, h⟩ | ⟨-, -, h⟩
    · simp [h, hs] at ht
    · exact he
    · simp [h] at ht
    · simp [h] at ht
  · rcases step_ksv hstep with h | ⟨-, h⟩ | ⟨hm, -⟩ | ⟨hb, hev, -⟩
    · simp [h, hs] at ht
    · simp [h] at ht
    · exact .inl hm
    · exact .inr ⟨hb, hev⟩
  · have hc : check v s.ksv = .nokey := by rw [check_of_decode s.ksv hd, hwf, hk, hs]; rfl
    obtain rfl := eq_of_submission hstep hw hb
    refine ⟨(writeCmd_err _ v).mpr (by simp [hc]), (writeCmd_ecode _ v).trans hc, ?_⟩
    exact Bool.eq_false_iff.mpr fun h => by simp [hc] at h

/-- Settles O9: what an access at the address of STATUS does, and the dropped busy write. -/
theorem statusWriteOnlyClearsBwe : Obligations.StatusWriteOnlyClearsBwe := by
  refine ⟨fun s v => ⟨?_, ?_⟩, fun s a v hb ha => ?_⟩
  · simp [State.regWrite, State.writeStatus_eq]
  · simp [readsExactly, State.regRead, State.returnValue]
  · simp [regWrite_busy a v hb ha, State.busyWrite]

end Sys2Proof.Proofs
end

section
/-! SUPPORT. The ignored host accesses (20_memory.md, rule R39) and joined bytes and words as numbers (rules R40, R41). -/

namespace Sys2Proof.Machine

open Sys2Proof.Statements

/-! ### Reserved addresses and read-only registers -/

@[simp] theorem toNat_keyAddr (i : Fin 8) : (keyAddr i).toNat = i.val := by simp [keyAddr]; omega
@[simp] theorem toNat_xAddr (i : Fin 4) : (xAddr i).toNat = 0x008 + i.val := by simp [xAddr]; omega
@[simp] theorem toNat_yAddr (i : Fin 4) : (yAddr i).toNat = 0x00C + i.val := by simp [yAddr]; omega

/-- From 0x013 on, no host write has an effect (rules R39, R62). -/
theorem regWrite_ignored (s : State) {a : Addr} (v : Word) (ha : 0x013 ≤ a.toNat) : s.regWrite a v = s := by
  rcases regWrite_cases s a v with ⟨rfl, -⟩ | ⟨hlow | rfl, -⟩ | ⟨-, i, rfl, -⟩ | ⟨-, i, rfl, -⟩ | ⟨-, i, rfl, -⟩ |
    ⟨-, rfl, -⟩ | ⟨-, rfl, -⟩ | ⟨-, h⟩
  · exact absurd ha (by decide)
  · omega
  · exact absurd ha (by decide)
  · rw [toNat_keyAddr] at ha; omega
  · rw [toNat_xAddr] at ha; omega
  · rw [toNat_yAddr] at ha; omega
  · exact absurd ha (by decide)
  · exact absurd ha (by decide)
  · exact h

theorem le_toNat_of_reservedAddr {a : Addr} (h : reservedAddr a) : 0x013 ≤ a.toNat := by
  unfold reservedAddr at h
  omega

theorem le_toNat_of_readOnly {a : Addr} (h : readOnly a) : 0x013 ≤ a.toNat := by
  rcases h with rfl | rfl | ⟨h, -⟩ | ⟨h, -⟩
  · decide
  · decide
  · omega
  · omega

/-- A reserved address reads 0, whatever command is pending (rules R39, R63). -/
theorem regRead_reserved (s : State) {a : Addr} (h : reservedAddr a) : s.regRead a = .exact 0x0000 := by
  have hmap : registerAt a = .reserved := registerAt_reserved (h.imp_right (Or.imp_right And.left))
  simp [State.regRead, hmap]

/-! ### Joined bytes and words -/

/-- Of two joined vectors the first is the more significant. -/
theorem toNat_append_eq_add {m n : Nat} (hi : BitVec m) (lo : BitVec n) :
    (hi ++ lo).toNat = 2 ^ n * hi.toNat + lo.toNat := by
  rw [BitVec.toNat_append, ← Nat.shiftLeft_add_eq_or_of_lt lo.isLt, Nat.shiftLeft_eq, Nat.mul_comm]

theorem toNat_wordOfBytes (hi lo : Byte) : (wordOfBytes hi lo).toNat = 256 * hi.toNat + lo.toNat :=
  toNat_append_eq_add hi lo

/-- A word is its two bytes joined (rule R40). -/
@[simp] theorem wordOfBytes_highByte_lowByte (v : Word) : wordOfBytes (highByte v) (lowByte v) = v :=
  BitVec.extractLsb'_append_extractLsb' (w := 8) (len := 8)

/-- KEY[i] of a byte-encoded key (rule R40). -/
theorem get_keyOfBytes (k : Vector Byte 16) (i : Fin 8) :
    (keyOfBytes k).get i = wordOfBytes k[2 * i.val] k[2 * i.val + 1] := by
  fin_cases i <;> rfl

/-- X[i] of a byte-encoded state (rule R40). -/
theorem get_blockOfBytes (p : Vector Byte 8) (i : Fin 4) :
    (blockOfBytes p).get i = wordOfBytes p[2 * i.val] p[2 * i.val + 1] := by
  fin_cases i <;> rfl

/-- The bytes of X[i] in the 8-bit view (rule R41). -/
theorem Block.getElem_bytes (x : Block) (i : Fin 4) :
    x.bytes[2 * i.val] = highByte (x.get i) ∧ x.bytes[2 * i.val + 1] = lowByte (x.get i) := by
  fin_cases i <;> exact ⟨rfl, rfl⟩

@[simp] theorem keyOfBytes_bytes (k : KeyWords) : keyOfBytes k.bytes = k := by
  simp [keyOfBytes, KeyWords.bytes]

@[simp] theorem blockOfBytes_bytes (x : Block) : blockOfBytes x.bytes = x := by
  simp [blockOfBytes, Block.bytes]

theorem Block.toNat_branch32 (x : Block) (b : Branch) :
    (x.branch32 b).toNat = 2 ^ 16 * (x.branch b).1.toNat + (x.branch b).2.toNat :=
  toNat_append_eq_add _ _

theorem Block.toNat_bits (x : Block) :
    x.bits.toNat = 2 ^ 48 * x.w0.toNat + 2 ^ 32 * x.w1.toNat + 2 ^ 16 * x.w2.toNat + x.w3.toNat := by
  simp only [Block.bits, toNat_append_eq_add]
  omega

theorem KeyWords.toNat_bits (k : KeyWords) :
    k.bits.toNat = 2 ^ 112 * k.k0.toNat + 2 ^ 96 * k.k1.toNat + 2 ^ 80 * k.k2.toNat + 2 ^ 64 * k.k3.toNat +
      2 ^ 48 * k.k4.toNat + 2 ^ 32 * k.k5.toNat + 2 ^ 16 * k.k6.toNat + k.k7.toNat := by
  simp only [KeyWords.bits, toNat_append_eq_add]
  omega

end Sys2Proof.Machine
end

section
/-! The obligations of the address map and the byte order (20_memory.md, rules R39 to R41). -/

namespace Sys2Proof.Proofs

open Sys2Proof.Machine Sys2Proof.Statements

/-- Settles O10: a reserved address reads an exact 0, and all the addresses named lie where no write has an effect. -/
theorem reservedAndReadOnlyAddresses : Obligations.ReservedAndReadOnlyAddresses := by
  refine ⟨fun s a ha => ?_, fun s a v ha => ?_⟩
  · rw [readsExactly, exec_regrd, regRead_reserved s ha, State.returnValue]
  · rw [exec_regwr, regWrite_ignored s v (ha.elim le_toNat_of_reservedAddr le_toNat_of_readOnly)]

/-- Settles O40, clause by clause from the lemmas on joined bytes and words. -/
theorem byteOrderIsBigEndian : Obligations.ByteOrderIsBigEndian := by
  refine ⟨fun k i => ?_, fun p i => ?_, fun x => ⟨x.toNat_bits, x.toNat_branch32⟩, KeyWords.toNat_bits,
    Block.getElem_bytes, keyOfBytes_bytes, blockOfBytes_bytes⟩
  · rw [get_keyOfBytes, toNat_wordOfBytes]
  · rw [get_blockOfBytes, toNat_wordOfBytes]

end Sys2Proof.Proofs
end

section
/-! SUPPORT. What each command's effect writes, as one update of the state (rule R64). -/

namespace Sys2Proof.Machine

/-- Every read of CONFIG returns its constant, whatever command is pending (rule R63). -/
@[simp] theorem regRead_config (s : State) : s.regRead 0x014 = .exact configWord := by
  simp [State.regRead]

/-- From s to u nothing is written but the write set of command i; completion, which also writes BUSY and DONE, is not
part of it (rule R64).  KSCHED's set includes the model's own flag that SK has been written. -/
def WritesWithin (i : Instr) (s u : State) : Prop :=
  match i with
  | .ksched => u = { s with sk := u.sk, kreg := u.kreg, ksv := true, skWritten := true }
  | .trail _ => u = { s with x := u.x, y := u.y, trail := u.trail, trailCount := u.trailCount }
  | _ => u = s.setX u.x

theorem WritesWithin.eq_setX {i : Instr} {s u : State} (h : WritesWithin i s u) (hksched : i ≠ .ksched)
    (htrail : ¬ ∃ n, i = .trail n) : u = s.setX u.x := by
  cases i with
  | ksched => exact absurd rfl hksched
  | trail n => exact absurd ⟨n, rfl⟩ htrail
  | _ => exact h

/-- Every command's arm is the two tests, then an effect within the command's write set: the companion of
`exec_eq_runCommand`, whose frame is silent on the registers that hold data. -/
theorem exec_eq_runCommand_writesWithin {i : Instr} (s : State) (h : i.isCommand = true) :
    ∃ effect : State → State, exec i s = .next (runCommand i.wellFormed i.usesKey s effect) ∧
      WritesWithin i s (effect s) := by
  cases i with
  | regwr a v => cases h
  | regrd a => cases h
  | ksched | encr | decr | encs | decs | lfwd | linv | trail => exact ⟨_, rfl, rfl⟩

/-- A command that passes both tests writes within its write set and completes (rules R35, R64). -/
theorem exec_completes {i : Instr} {s : State} (hi : i.isCommand = true) (hwf : i.wellFormed = true)
    (hkey : i.usesKey = true → s.ksv = true) :
    ∃ u, exec i s = .next u.complete ∧ WritesWithin i s u := by
  obtain ⟨effect, hexec, hwrites⟩ := exec_eq_runCommand_writesWithin s hi
  exact ⟨effect s, by rw [hexec, runCommand_accepted effect hwf hkey], hwrites⟩

end Sys2Proof.Machine
end

section
/-! The obligation of the commands' write sets (40_host_bus.md, rule R64). -/

namespace Sys2Proof.Proofs

open Sys2Proof.Machine Sys2Proof.Statements

/-- Settles O27: each clause is the completion of an effect that writes within the command's write set; CONFIG is a
constant, so no read of it can differ. -/
theorem commandsWriteOnlyTheirWriteSet : Obligations.CommandsWriteOnlyTheirWriteSet := by
  intro i s hi hwf hkey
  obtain ⟨u, hexec, hwrites⟩ := exec_completes hi hwf hkey
  refine ⟨u.complete, hexec, u.complete_busy, u.complete_done, ?ksched, ?trail, ?others, ?config⟩
  case ksched =>
    rintro rfl
    exact congrArg State.complete hwrites
  case trail =>
    rintro ⟨n, rfl⟩
    exact congrArg State.complete hwrites
  case others =>
    intro hksched htrail
    exact congrArg State.complete (hwrites.eq_setX hksched htrail)
  case config => rw [regRead_config, regRead_config]

end Sys2Proof.Proofs
end

section
/-! SUPPORT. The datapath functions as algebra (41_primitives.md, rules R69 to R79): what undoes what, and what commutes. -/

namespace Sys2Proof.Machine

/-! ### The round transform and the linear layer -/

/-- The right word comes back first: the exclusive or with the new left word cancels; then the subtraction cancels. -/
@[simp] theorem roundAInv_roundA (p : Word × Word) : roundAInv (roundA p) = p := by
  simp [roundA, roundAInv]

@[simp] theorem roundA_roundAInv (p : Word × Word) : roundA (roundAInv p) = p := by
  simp [roundA, roundAInv]

/-- MIX keeps branch 0, so the second MIX adds the same two words to branch 1 as the first (rule R70). -/
@[simp] theorem mix_mix (x : Block) : mix (mix x) = x := by
  have cancel (v a t : Word) : v ^^^ a ^^^ t ^^^ a ^^^ t = v :=
    calc v ^^^ a ^^^ t ^^^ a ^^^ t = v ^^^ (a ^^^ a) ^^^ (t ^^^ t) := by ac_rfl
      _ = v := by simp
  simp only [mix, cancel]

@[simp] theorem swap_swap (x : Block) : swap (swap x) = x := rfl

@[simp] theorem layerInv_layer (x : Block) : layerInv (layer x) = x := by
  rw [layerInv, layer, swap_swap, mix_mix]

@[simp] theorem layer_layerInv (x : Block) : layer (layerInv x) = x := by
  rw [layer, layerInv, mix_mix, swap_swap]

/-! ### Rounds of different branches -/

/-- Branch b through f, the other branch as it is: what a round does, of either direction. -/
def Block.mapBranch (x : Block) (b : Branch) (f : Word × Word → Word × Word) : Block :=
  x.setBranch b (f (x.branch b))

theorem encRound_eq_mapBranch (sk : Vector SubkeyGroup 17) (b : Branch) (x : Block) (r : Nat) :
    encRound sk b x r = x.mapBranch b fun p => roundA (xorPair p (subkeyPair sk b r)) := rfl

theorem decRound_eq_mapBranch (sk : Vector SubkeyGroup 17) (b : Branch) (x : Block) (r : Nat) :
    decRound sk b x r = x.mapBranch b fun p => xorPair (roundAInv p) (subkeyPair sk b r) := rfl

theorem Block.mapBranch_comm (x : Block) {b b' : Branch} (f g : Word × Word → Word × Word) (h : b ≠ b') :
    (x.mapBranch b f).mapBranch b' g = (x.mapBranch b' g).mapBranch b f := by
  simp only [mapBranch]
  rw [branch_setBranch_ne _ _ h.symm, branch_setBranch_ne _ _ h, setBranch_comm _ _ _ h]

section
variable (sk : Vector SubkeyGroup 17) {b b' : Branch} (h : b ≠ b') (x : Block) (r r' : Nat)
include h

theorem encRound_comm : encRound sk b' (encRound sk b x r) r' = encRound sk b (encRound sk b' x r') r := by
  simp only [encRound_eq_mapBranch, x.mapBranch_comm _ _ h]

theorem decRound_comm : decRound sk b' (decRound sk b x r) r' = decRound sk b (decRound sk b' x r') r := by
  simp only [decRound_eq_mapBranch, x.mapBranch_comm _ _ h]

theorem decRound_encRound_comm :
    decRound sk b' (encRound sk b x r) r' = encRound sk b (decRound sk b' x r') r := by
  simp only [encRound_eq_mapBranch, decRound_eq_mapBranch, x.mapBranch_comm _ _ h]

end

/-- Two runs of rounds commute where each round of the one commutes with each round of the other. -/
theorem foldl_foldl_comm {f g : Block → Nat → Block} (h : ∀ x r r', g (f x r) r' = f (g x r') r)
    (rounds rounds' : List Nat) (x : Block) :
    rounds'.foldl g (rounds.foldl f x) = rounds.foldl f (rounds'.foldl g x) :=
  List.foldl_hom (fun x => rounds.foldl f x) fun _ r' =>
    (List.foldl_hom (fun x => g x r') fun x r => (h x r r').symm).symm

end Sys2Proof.Machine
end

section
/-! The obligations of the primitives (41_primitives.md, rules R69, R74, R79). -/

namespace Sys2Proof.Proofs

open Sys2Proof.Machine Sys2Proof.Statements

/-- Settles O32: a round maps its own branch alone, so rounds of different branches commute, and with them whole runs
of rounds. -/
theorem branchesAreIndependent : Obligations.BranchesAreIndependent := by
  refine ⟨fun sk b b' r r' x h => ⟨encRound_comm sk h x r r', decRound_comm sk h x r r',
    decRound_encRound_comm sk h x r r'⟩, fun sk r1 r2 x => ⟨?_, ?_⟩⟩
  · exact foldl_foldl_comm (encRound_comm sk (by decide : Branch.b0 ≠ .b1)) _ _ x
  · exact foldl_foldl_comm (decRound_comm sk (by decide : Branch.b0 ≠ .b1)) _ _ x

/-- Settles O29: a function with an inverse on both sides is a bijection. -/
theorem roundTransformIsBijective : Obligations.RoundTransformIsBijective :=
  ⟨fun p => ⟨roundAInv_roundA p, roundA_roundAInv p⟩,
    Function.bijective_iff_has_inverse.mpr ⟨roundAInv, roundAInv_roundA, roundA_roundAInv⟩⟩

/-- Settles O30: MIX and SWAP are involutions, so L_inverse takes them off in the reverse order. -/
theorem linearLayerInverts : Obligations.LinearLayerInverts :=
  fun x => ⟨layerInv_layer x, layer_layerInv x⟩

end Sys2Proof.Proofs
end

section
/-! SUPPORT. The key schedule, a turn of KSCHED's loop at a time, and which of its words serve a round (42_key_schedule.md,
rules R81 to R83). -/

namespace Sys2Proof.Machine

/-! ### KSCHED's loop -/

theorem countUp_zero (b : Nat) : countUp 0 b = List.range (b + 1) := List.range_eq_range'.symm

/-- After n turns KREG is KREG_n and the first n groups are written, each from its own register state (rules R81, R82). -/
theorem foldl_expandGroup (key : KeyWords) (sk : Vector SubkeyGroup 17) (n : Nat) :
    ((List.range n).foldl expandGroup ⟨key, sk⟩).kreg = kregBefore key n ∧
      ∀ g : Fin 17, ((List.range n).foldl expandGroup ⟨key, sk⟩).sk[g] =
        if g.val < n then (kregBefore key g.val).firstSix else sk[g] := by
  induction n with
  | zero => exact ⟨rfl, fun g => rfl⟩
  | succ n ih =>
    obtain ⟨hkreg, hsk⟩ := ih
    simp only [List.range_succ, List.foldl_concat, expandGroup_eq, hkreg]
    refine ⟨rfl, fun g => ?_⟩
    rw [Fin.getElem_fin, Vector.getElem_setIfInBounds g.isLt, ← Fin.getElem_fin, hsk]
    rcases lt_trichotomy g.val n with h | h | h
    · rw [if_neg h.ne', if_pos h, if_pos (h.trans n.lt_succ_self)]
    · rw [if_pos h.symm, if_pos (h ▸ n.lt_succ_self), h]
    · rw [if_neg h.ne, if_neg h.asymm, if_neg (by omega)]

theorem scheduleOf_get (key : KeyWords) (g : Fin 17) :
    (scheduleOf key)[g] = (kregBefore key g.val).firstSix :=
  Vector.getElem_ofFn g.isLt

/-- The loop computes the schedule, whatever SK held, and leaves KREG as the last permutation made it (rules R81, R82). -/
theorem expandKey_eq (key : KeyWords) (sk : Vector SubkeyGroup 17) :
    expandKey key sk = ⟨kregBefore key 17, scheduleOf key⟩ := by
  obtain ⟨hkreg, hsk⟩ := foldl_expandGroup key sk 17
  rw [expandKey, countUp_zero, KeyExpansion.mk.injEq]
  refine ⟨hkreg, Vector.ext fun g hg => ?_⟩
  exact (hsk ⟨g, hg⟩).trans ((if_pos hg).trans (scheduleOf_get key ⟨g, hg⟩).symm)

/-- KSCHED completes from every state with KEY's schedule in SK (rule R81). -/
theorem exec_ksched (s : State) :
    exec .ksched s = .next
      ({ s with sk := scheduleOf s.key, kreg := kregBefore s.key 17, ksv := true, skWritten := true } : State).complete := by
  show execKsched s = _
  rw [execKsched, runCommand_free, expandKey_eq]

/-! ### Which words serve a round, and the whitening -/

/-- Round position j of step s is a round of step s (rule R7). -/
theorem stepOf_roundAt {s j : Nat} (hs : 1 ≤ s) (hj : j < 3) : stepOf (3 * (s - 1) + 1 + j) = s := by
  unfold stepOf
  omega

theorem posOf_roundAt (s : Nat) {j : Nat} (hj : j < 3) : posOf (3 * (s - 1) + 1 + j) = ⟨j, hj⟩ := by
  simp only [posOf, Fin.mk.injEq]
  omega

/-- Steps 1 to 8 take the groups 0 to 15, so no group number wraps (rule R83). -/
theorem val_groupOf {s : Nat} (b : Branch) (hs : s ≤ 8) : (groupOf s b).val = 2 * (s - 1) + b.number := by
  have hb : b.number ≤ 1 := by cases b <;> decide
  simp only [groupOf, Fin.val_ofNat]
  omega

/-- In round position j of step s the words 2j and 2j + 1 of the branch's group serve (rules R75, R83). -/
theorem subkeyPair_roundAt (sk : Vector SubkeyGroup 17) (b : Branch) {s j : Nat} (hs : 1 ≤ s) (hj : j < 3) :
    subkeyPair sk b (3 * (s - 1) + 1 + j) =
      (sk[groupOf s b].get ⟨2 * j, by omega⟩, sk[groupOf s b].get ⟨2 * j + 1, by omega⟩) := by
  simp only [subkeyPair, stepOf_roundAt hs hj, posOf_roundAt s hj]

/-- The whitening word by word (rule R78). -/
theorem get_whiten (sk : Vector SubkeyGroup 17) (x : Block) (i : Fin 4) :
    (whiten sk x).get i = x.get i ^^^ sk[16].get (i.castLE (by decide)) := by
  fin_cases i <;> rfl

end Sys2Proof.Machine
end

section
/-! The obligations of the key schedule (42_key_schedule.md, rules R82, R83). -/

namespace Sys2Proof.Proofs

open Sys2Proof.Machine Sys2Proof.Statements

/-- Settles O18: the register states are KREG_0 to KREG_16, whose recursion is the permutation asked for. -/
theorem groupsComeFromTheRegister : Obligations.GroupsComeFromTheRegister := by
  intro s t hexec
  obtain rfl := next_unique hexec (exec_ksched s)
  refine ⟨scheduleOf_get s.key 0, Vector.ofFn fun g => kregBefore s.key g.val, Vector.getElem_ofFn (by decide), fun g => ?_⟩
  have hkregs : ∀ g : Fin 17, (Vector.ofFn fun g : Fin 17 => kregBefore s.key g.val)[g] = kregBefore s.key g.val :=
    fun g => Vector.getElem_ofFn g.isLt
  rw [hkregs, hkregs]
  exact ⟨scheduleOf_get s.key g.castSucc, scheduleOf_get s.key g.succ, rfl⟩

/-- Settles O21: the group and the words by number, and the whitening word by word. -/
theorem subkeyGroupsServeTheirBranchAndStep : Obligations.SubkeyGroupsServeTheirBranchAndStep :=
  ⟨fun sk _ _ b hs1 hs8 hj =>
    ⟨groupOf _ b, ⟨_, by omega⟩, ⟨_, by omega⟩, val_groupOf b hs8, rfl, rfl, subkeyPair_roundAt sk b hs1 hj⟩,
    get_whiten⟩

end Sys2Proof.Proofs
end

section
/-! SUPPORT. ENCR and DECR: the one update each makes, and why each undoes the other (43_round_commands.md, rules R84 to
R86). -/

namespace Sys2Proof.Machine

/-! ### A round, a run of rounds and a loop over the branches undone -/

section
variable (sk : Vector SubkeyGroup 17)

@[simp] theorem decRound_encRound_same (b : Branch) (x : Block) (r : Nat) :
    decRound sk b (encRound sk b x r) r = x := by
  simp [decRound, encRound]

@[simp] theorem encRound_decRound_same (b : Branch) (x : Block) (r : Nat) :
    encRound sk b (decRound sk b x r) r = x := by
  simp [decRound, encRound]

/-- Where g undoes each round of f, a run of g over the same rounds in reverse undoes the run of f. -/
theorem foldl_reverse_foldl {f g : Block → Nat → Block} (h : ∀ x r, g (f x r) r = x) (rounds : List Nat) (x : Block) :
    rounds.reverse.foldl g (rounds.foldl f x) = x := by
  induction rounds generalizing x with
  | nil => rfl
  | cons r rounds ih => rw [List.foldl_cons, List.reverse_cons, List.foldl_concat, ih, h]

theorem foldl_decRound_foldl_encRound (b : Branch) (r1 r2 : Nat) (x : Block) :
    (countDown r2 r1).foldl (decRound sk b) ((countUp r1 r2).foldl (encRound sk b) x) = x :=
  foldl_reverse_foldl (decRound_encRound_same sk b) _ x

theorem foldl_encRound_foldl_decRound (b : Branch) (r1 r2 : Nat) (x : Block) :
    (countUp r1 r2).foldl (encRound sk b) ((countDown r2 r1).foldl (decRound sk b) x) = x := by
  simpa [countDown] using foldl_reverse_foldl (encRound_decRound_same sk b) (countDown r2 r1) x

/-- Both loops go through branch 0 first.  Rounds of different branches commute, so the second loop may take branch 1
first: the order in which it meets what the first loop did last (rules R79, R86). -/
theorem decryptRounds_encryptRounds (r1 r2 : Nat) (x : Block) :
    decryptRounds sk r1 r2 (encryptRounds sk r1 r2 x) = x := by
  obtain ⟨-, hdec⟩ := Proofs.branchesAreIndependent.2 sk r1 r2 (encryptRounds sk r1 r2 x)
  calc decryptRounds sk r1 r2 (encryptRounds sk r1 r2 x)
    _ = (countDown r2 r1).foldl (decRound sk .b0) ((countDown r2 r1).foldl (decRound sk .b1)
          ((countUp r1 r2).foldl (encRound sk .b1) ((countUp r1 r2).foldl (encRound sk .b0) x))) := hdec
    _ = x := by rw [foldl_decRound_foldl_encRound, foldl_decRound_foldl_encRound]

theorem encryptRounds_decryptRounds (r1 r2 : Nat) (x : Block) :
    encryptRounds sk r1 r2 (decryptRounds sk r1 r2 x) = x := by
  obtain ⟨henc, -⟩ := Proofs.branchesAreIndependent.2 sk r1 r2 (decryptRounds sk r1 r2 x)
  calc encryptRounds sk r1 r2 (decryptRounds sk r1 r2 x)
    _ = (countUp r1 r2).foldl (encRound sk .b0) ((countUp r1 r2).foldl (encRound sk .b1)
          ((countDown r2 r1).foldl (decRound sk .b1) ((countDown r2 r1).foldl (decRound sk .b0) x))) := henc
    _ = x := by rw [foldl_encRound_foldl_decRound, foldl_encRound_foldl_decRound]

end

/-! ### The two commands with a legal range and a valid schedule -/

section
variable {r1 r2 : Nat} {s : State} (hlegal : legalRounds r1 r2 = true) (hksv : s.ksv = true)
include hlegal hksv

theorem exec_encr : exec (.encr r1 r2) s = .next (s.setX (encryptRounds s.sk r1 r2 s.x)).complete :=
  congrArg _ (runCommand_accepted _ hlegal fun _ => hksv)

theorem exec_decr : exec (.decr r1 r2) s = .next (s.setX (decryptRounds s.sk r1 r2 s.x)).complete :=
  congrArg _ (runCommand_accepted _ hlegal fun _ => hksv)

end

end Sys2Proof.Machine
end

section
/-! The obligation of the round commands (43_round_commands.md, rule R86). -/

namespace Sys2Proof.Proofs

open Sys2Proof.Machine Sys2Proof.Statements

/-- Settles O33: the first command leaves SK and KSV as they are, so the second one completes with the same subkeys, and
its loops undo those of the first. -/
theorem roundCommandsRoundTrip : Obligations.RoundCommandsRoundTrip := by
  intro s r1 r2 h1 h12 h24 hksv
  have hlegal : legalRounds r1 r2 = true := decide_eq_true ⟨h1, h12, h24⟩
  exact ⟨⟨_, _, exec_encr hlegal hksv, exec_decr hlegal hksv, decryptRounds_encryptRounds s.sk r1 r2 s.x⟩,
    ⟨_, _, exec_decr hlegal hksv, exec_encr hlegal hksv, encryptRounds_decryptRounds s.sk r1 r2 s.x⟩⟩

end Sys2Proof.Proofs
end

section
/-! SUPPORT. ENCS, DECS, LFWD and LINV: the one update each makes, why DECS undoes ENCS, and where a range of steps may be
cut (44_step_commands.md, rules R89 to R94). -/

namespace Sys2Proof.Machine

/-! ### The terminal whitening -/

@[simp] theorem whiten_whiten (sk : Vector SubkeyGroup 17) (x : Block) : whiten sk (whiten sk x) = x := by
  simp [whiten]

/-! ### A step and a range of steps undone -/

section
variable (sk : Vector SubkeyGroup 17) (finalL : Bool)

/-- LAFTER is the same in both directions: L is taken off exactly where it was put on (rule R91). -/
@[simp] theorem decryptStep_encryptStep (x : Block) (s : Nat) :
    decryptStep sk finalL (encryptStep sk finalL x s) s = x := by
  rw [decryptStep_eq, encryptStep_eq]
  split
  · rw [layerInv_layer, decryptRounds_encryptRounds]
  · exact decryptRounds_encryptRounds sk _ _ x

/-- The whitening is its own inverse; then the steps come off in descending order (rule R91). -/
theorem decryptSteps_encryptSteps (s1 s2 : Nat) (x : Block) :
    decryptSteps sk finalL s1 s2 (encryptSteps sk finalL s1 s2 x) = x := by
  have hsteps : (countDown s2 s1).foldl (decryptStep sk finalL) ((countUp s1 s2).foldl (encryptStep sk finalL) x) = x :=
    foldl_reverse_foldl (decryptStep_encryptStep sk finalL) _ x
  unfold decryptSteps encryptSteps
  split
  · rw [whiten_whiten, hsteps]
  · exact hsteps

/-! ### A range of steps cut in two -/

section
variable {s1 m s2 : Nat} (h1 : s1 ≤ m + 1) (h2 : m < s2) (h8 : s2 ≤ 8) (x : Block)
include h1 h2 h8

/-- The lower part ends before step 8, so the whitening is left to the upper part (rule R92). -/
theorem encryptSteps_append :
    encryptSteps sk finalL s1 s2 x = encryptSteps sk finalL (m + 1) s2 (encryptSteps sk finalL s1 m x) := by
  have hm : m ≠ 8 := by omega
  simp only [encryptSteps, if_neg hm, countUp_append h1 h2.le, List.foldl_append]

/-- The upper part comes first here, and with it the stripping of the whitening (rule R92). -/
theorem decryptSteps_append :
    decryptSteps sk finalL s1 s2 x = decryptSteps sk finalL s1 m (decryptSteps sk finalL (m + 1) s2 x) := by
  have hm : m ≠ 8 := by omega
  simp only [decryptSteps, if_neg hm, countDown, countUp_append h1 h2.le, List.reverse_append, List.foldl_append]

end

/-! ### One step before step 8 -/

theorem countUp_self (s : Nat) : countUp s s = [s] := by
  rw [countUp, Nat.add_sub_cancel_left, List.range'_one]

theorem layerAfter_of_ne_eight {s : Nat} (h : s ≠ 8) : layerAfter finalL s = true :=
  (layerAfter_iff finalL s).mpr (.inl h)

theorem encryptSteps_self {s : Nat} (h : s ≠ 8) (x : Block) :
    encryptSteps sk finalL s s x = layer (encryptRounds sk (3 * s - 2) (3 * s) x) := by
  rw [encryptSteps, if_neg h, countUp_self, List.foldl_cons, List.foldl_nil, encryptStep_eq,
    if_pos (layerAfter_of_ne_eight finalL h)]

theorem decryptSteps_self {s : Nat} (h : s ≠ 8) (x : Block) :
    decryptSteps sk finalL s s x = decryptRounds sk (3 * s - 2) (3 * s) (layerInv x) := by
  rw [decryptSteps, if_neg h, countDown, countUp_self, List.reverse_singleton, List.foldl_cons, List.foldl_nil,
    decryptStep_eq, if_pos (layerAfter_of_ne_eight finalL h)]

end

/-! ### The commands: the step commands with a legal range and a valid schedule, the linear layer from every state -/

section
variable {s1 s2 : Nat} {s : State} (hlegal : legalSteps s1 s2 = true) (hksv : s.ksv = true)
include hlegal hksv

theorem exec_encs : exec (.encs s1 s2) s = .next (s.setX (encryptSteps s.sk s.finalL s1 s2 s.x)).complete :=
  congrArg _ (runCommand_accepted _ hlegal fun _ => hksv)

theorem exec_decs : exec (.decs s1 s2) s = .next (s.setX (decryptSteps s.sk s.finalL s1 s2 s.x)).complete :=
  congrArg _ (runCommand_accepted _ hlegal fun _ => hksv)

end

@[simp] theorem exec_lfwd (s : State) : exec .lfwd s = .next (s.setX (layer s.x)).complete := rfl

@[simp] theorem exec_linv (s : State) : exec .linv s = .next (s.setX (layerInv s.x)).complete := rfl

end Sys2Proof.Machine
end

section
/-! The obligations of the step commands (44_step_commands.md, rules R91, R92). -/

namespace Sys2Proof.Proofs

open Sys2Proof.Machine Sys2Proof.Statements

/-- Settles O34: ENCS leaves SK, KSV and FINAL_L as they are, so DECS completes with the same subkeys and takes off the
same steps. -/
theorem stepCommandsRoundTrip : Obligations.StepCommandsRoundTrip := by
  intro s s1 s2 h1 h12 h8 hksv
  have hlegal : legalSteps s1 s2 = true := decide_eq_true ⟨h1, h12, h8⟩
  exact ⟨_, _, exec_encs hlegal hksv, exec_decs hlegal hksv, decryptSteps_encryptSteps s.sk s.finalL s1 s2 s.x⟩

/-- Settles O36: where a range is cut, its lower part ends before step 8 and so has no whitening; a step before step 8 is
its rounds and L. -/
theorem stepCommandsCompose : Obligations.StepCommandsCompose := by
  refine ⟨fun s s1 m s2 h1 h1m hm2 h8 hksv => ?_, fun s k h1 h7 hksv => ?_⟩
  · have hwhole : legalSteps s1 s2 = true := decide_eq_true (by omega)
    have hlow : legalSteps s1 m = true := decide_eq_true (by omega)
    have hhigh : legalSteps (m + 1) s2 = true := decide_eq_true (by omega)
    have hcut : s1 ≤ m + 1 := by omega
    exact ⟨⟨_, _, _, exec_encs hwhole hksv, exec_encs hlow hksv, exec_encs hhigh hksv,
        encryptSteps_append s.sk s.finalL hcut hm2 h8 s.x⟩,
      ⟨_, _, _, exec_decs hwhole hksv, exec_decs hhigh hksv, exec_decs hlow hksv,
        decryptSteps_append s.sk s.finalL hcut hm2 h8 s.x⟩⟩
  · have hstep : legalSteps k k = true := decide_eq_true (by omega)
    have hrounds : legalRounds (3 * k - 2) (3 * k) = true := decide_eq_true (by omega)
    have hk : k ≠ 8 := by omega
    exact ⟨⟨_, _, _, exec_encs hstep hksv, exec_encr hrounds hksv, exec_lfwd _, encryptSteps_self s.sk s.finalL hk s.x⟩,
      ⟨_, _, _, exec_decs hstep hksv, exec_linv s, exec_decr hrounds hksv, decryptSteps_self s.sk s.finalL hk s.x⟩⟩

end Sys2Proof.Proofs
end

section
/-! SUPPORT. TRAIL a record at a time: the run of its loops after each record, and the one update the command makes
(45_trail.md, rules R95, R96). -/

namespace Sys2Proof.Machine

/-! ### The state after a number of records -/

section
variable (sk : Vector SubkeyGroup 17)

theorem encryptRounds_empty (r : Nat) (x : Block) : encryptRounds sk (r + 1) r x = x := by
  simp [encryptRounds, countUp, Branch.all]

/-- ENCR takes the branches one after the other, TRAIL the rounds: round r2 + 1 of branch 0 goes past the rounds of
branch 1 before it (rule R79). -/
theorem encryptRounds_succ {r1 r2 : Nat} (h : r1 ≤ r2 + 1) (x : Block) :
    encryptRounds sk r1 (r2 + 1) x =
      encRound sk .b1 (encRound sk .b0 (encryptRounds sk r1 r2 x) (r2 + 1)) (r2 + 1) := by
  have hpast (y : Block) : (countUp r1 r2).foldl (encRound sk .b1) (encRound sk .b0 y (r2 + 1)) =
      encRound sk .b0 ((countUp r1 r2).foldl (encRound sk .b1) y) (r2 + 1) :=
    foldl_foldl_comm (encRound_comm sk (show Branch.b0 ≠ .b1 by decide)) [r2 + 1] (countUp r1 r2) y
  simp only [encryptRounds, Branch.all, List.foldl_cons, List.foldl_nil, countUp_succ _ _ h, List.foldl_concat, hpast]

variable (finalL : Bool)

/-- What TRAIL has made of a state x once c records are made: of every four records three follow a round and one follows
L, so c / 4 steps are over, and c % 4 rounds of the next one. -/
def stateAfter (c : Nat) (x : Block) : Block :=
  encryptRounds sk (3 * (c / 4) + 1) (3 * (c / 4) + c % 4) ((countUp 1 (c / 4)).foldl (encryptStep sk finalL) x)

theorem stateAfter_eq (q : Nat) {j : Nat} (hj : j < 4) (x : Block) :
    stateAfter sk finalL (4 * q + j) x =
      encryptRounds sk (3 * q + 1) (3 * q + j) ((countUp 1 q).foldl (encryptStep sk finalL) x) := by
  rw [stateAfter, show (4 * q + j) / 4 = q by omega, show (4 * q + j) % 4 = j by omega]

theorem stateAfter_steps (q : Nat) (x : Block) :
    stateAfter sk finalL (4 * q) x = (countUp 1 q).foldl (encryptStep sk finalL) x :=
  (stateAfter_eq sk finalL q (by decide : 0 < 4) x).trans (encryptRounds_empty sk _ _)

theorem stateAfter_round (q : Nat) {j : Nat} (hj : j < 3) (x : Block) :
    stateAfter sk finalL (4 * q + j + 1) x =
      encRound sk .b1 (encRound sk .b0 (stateAfter sk finalL (4 * q + j) x) (3 * q + j + 1)) (3 * q + j + 1) := by
  rw [Nat.add_assoc, stateAfter_eq sk finalL q (by omega), stateAfter_eq sk finalL q (by omega), ← Nat.add_assoc,
    encryptRounds_succ sk (by omega)]

/-- The steps up to q + 1 are three rounds after the steps up to q, and L where LAFTER(q + 1). -/
theorem foldl_encryptStep_succ (q : Nat) (x : Block) :
    (countUp 1 (q + 1)).foldl (encryptStep sk finalL) x =
      if layerAfter finalL (q + 1) then layer (stateAfter sk finalL (4 * q + 3) x)
      else stateAfter sk finalL (4 * q + 3) x := by
  rw [countUp_succ _ _ (by omega), List.foldl_concat, encryptStep_eq, stateAfter_eq sk finalL q (by decide)]
  rfl

theorem stateAfter_layer {finalL : Bool} {q : Nat} (hlayer : layerAfter finalL (q + 1) = true) (x : Block) :
    stateAfter sk finalL (4 * q + 3 + 1) x = layer (stateAfter sk finalL (4 * q + 3) x) :=
  calc stateAfter sk finalL (4 * (q + 1)) x
    _ = (countUp 1 (q + 1)).foldl (encryptStep sk finalL) x := stateAfter_steps sk finalL (q + 1) x
    _ = layer (stateAfter sk finalL (4 * q + 3) x) := by rw [foldl_encryptStep_succ, if_pos hlayer]

end

/-! ### The number of records -/

/-- The records of TRAIL n: four to a step, but none for L after a step without L. -/
def recordCount (finalL : Bool) (n : Nat) : Nat :=
  if layerAfter finalL n then 4 * n else 4 * n - 1

theorem recordCount_of_ne_eight (finalL : Bool) {n : Nat} (h : n ≠ 8) : recordCount finalL n = 4 * n :=
  if_pos (layerAfter_of_ne_eight finalL h)

theorem recordCount_le (finalL : Bool) (n : Nat) : recordCount finalL n ≤ 4 * n := by
  unfold recordCount
  split <;> omega

theorem recordCount_pos (finalL : Bool) {n : Nat} (h : 1 ≤ n) : 0 < recordCount finalL n := by
  unfold recordCount
  split <;> omega

theorem toNat_ofNat_recordCount (finalL : Bool) {n : Nat} (h : n ≤ 8) :
    (BitVec.ofNat 16 (recordCount finalL n)).toNat = recordCount finalL n := by
  have := recordCount_le finalL n
  exact Nat.mod_eq_of_lt (by omega)

/-- After the last record of TRAIL n its n steps are over: a step without L ends with its rounds. -/
theorem stateAfter_recordCount (sk : Vector SubkeyGroup 17) (finalL : Bool) {n : Nat} (h : 1 ≤ n) (x : Block) :
    stateAfter sk finalL (recordCount finalL n) x = (countUp 1 n).foldl (encryptStep sk finalL) x := by
  obtain ⟨q, rfl⟩ := Nat.exists_eq_add_of_le' h
  unfold recordCount
  split
  case isTrue => exact stateAfter_steps sk finalL (q + 1) x
  case isFalse hlayer => rw [foldl_encryptStep_succ, if_neg hlayer, show 4 * (q + 1) - 1 = 4 * q + 3 by omega]

/-! ### The records -/

/-- The record EMIT(kind, s, r) makes for a difference (rule R95). -/
def TrailRecord.make (kind s r : Nat) (d : Block) : TrailRecord :=
  ⟨BitVec.ofNat 16 kind, BitVec.ofNat 16 s, BitVec.ofNat 16 r, d.w0, d.w1, d.w2, d.w3, 0x0000⟩

section
variable (kind s r : Nat) (d : Block)

@[simp] theorem TrailRecord.make_kind : (make kind s r d).kind = BitVec.ofNat 16 kind := rfl
@[simp] theorem TrailRecord.make_round : (make kind s r d).round = BitVec.ofNat 16 r := rfl

end

section
variable (s : State)

/-- Record m of a trail from s: every fourth one follows L, the others a round. -/
def recordAt (m : Nat) : TrailRecord :=
  TrailRecord.make (if m % 4 = 3 then 2 else 1) (m / 4 + 1) (if m % 4 = 3 then 0 else 3 * (m / 4) + m % 4 + 1)
    ((stateAfter s.sk s.finalL (m + 1) s.x).xor (stateAfter s.sk s.finalL (m + 1) s.y))

theorem recordAt_round (q : Nat) {j : Nat} (hj : j < 3) :
    recordAt s (4 * q + j) = TrailRecord.make 1 (q + 1) (3 * q + j + 1)
      ((stateAfter s.sk s.finalL (4 * q + j + 1) s.x).xor (stateAfter s.sk s.finalL (4 * q + j + 1) s.y)) := by
  rw [recordAt, show (4 * q + j) / 4 = q by omega, show (4 * q + j) % 4 = j by omega, if_neg hj.ne, if_neg hj.ne]

theorem recordAt_layer (q : Nat) :
    recordAt s (4 * q + 3) = TrailRecord.make 2 (q + 1) 0
      ((stateAfter s.sk s.finalL (4 * q + 3 + 1) s.x).xor (stateAfter s.sk s.finalL (4 * q + 3 + 1) s.y)) := by
  rw [recordAt, show (4 * q + 3) / 4 = q by omega, show (4 * q + 3) % 4 = 3 by omega]
  rfl

theorem recordAt_difference (m : Nat) :
    (recordAt s m).difference =
      (stateAfter s.sk s.finalL (m + 1) s.x).xor (stateAfter s.sk s.finalL (m + 1) s.y) := rfl

/-- The trail buffer after c records: the records from c on are as before. -/
def trailAfter (c : Nat) : Vector TrailRecord 32 :=
  Vector.ofFn fun m => if m.val < c then recordAt s m.val else s.trail[m]

theorem trailAfter_get (c : Nat) (m : Fin 32) :
    (trailAfter s c)[m] = if m.val < c then recordAt s m.val else s.trail[m] :=
  Vector.getElem_ofFn m.isLt

theorem trailAfter_get_of_lt {c : Nat} {m : Fin 32} (h : m.val < c) : (trailAfter s c)[m] = recordAt s m.val := by
  rw [trailAfter_get, if_pos h]

theorem trailAfter_zero : trailAfter s 0 = s.trail :=
  Vector.ext fun m hm => trailAfter_get s 0 ⟨m, hm⟩

theorem trailAfter_succ (c : Nat) : trailAfter s (c + 1) = (trailAfter s c).setIfInBounds c (recordAt s c) := by
  refine Vector.ext fun i hi => ?_
  have hold := trailAfter_get s c ⟨i, hi⟩
  have hnew := trailAfter_get s (c + 1) ⟨i, hi⟩
  have hset := trail_set_get (trailAfter s c) c (recordAt s c) ⟨i, hi⟩
  simp only [Fin.getElem_fin] at hold hnew hset
  rw [hset, hnew, hold]
  rcases lt_trichotomy i c with h | rfl | h
  · rw [if_pos (by omega), if_neg h.ne, if_pos h]
  · rw [if_pos i.lt_succ_self, if_pos rfl]
  · rw [if_neg (by omega), if_neg h.ne', if_neg h.asymm]

/-! ### TRAIL's loops -/

/-- What TRAIL's loops carry after c records. -/
def runAfter (c : Nat) : TrailRun :=
  ⟨stateAfter s.sk s.finalL c s.x, stateAfter s.sk s.finalL c s.y, c, trailAfter s c⟩

theorem runAfter_zero : runAfter s 0 = ⟨s.x, s.y, 0, s.trail⟩ := by
  rw [runAfter, trailAfter_zero]
  exact congrArg₂ (TrailRun.mk · · 0 s.trail)
    (stateAfter_steps s.sk s.finalL 0 s.x)
    (stateAfter_steps s.sk s.finalL 0 s.y)

/-- Emitting record c after c records, the two states being those it is made for. -/
theorem emit_eq_runAfter {c kind step r : Nat}
    (hrecord : recordAt s c = TrailRecord.make kind step r
      ((stateAfter s.sk s.finalL (c + 1) s.x).xor (stateAfter s.sk s.finalL (c + 1) s.y))) :
    TrailRun.emit ⟨stateAfter s.sk s.finalL (c + 1) s.x, stateAfter s.sk s.finalL (c + 1) s.y, c, trailAfter s c⟩
      kind step r = runAfter s (c + 1) := by
  rw [runAfter, trailAfter_succ, hrecord]
  rfl

theorem runAfter_round (q : Nat) {j : Nat} (hj : j < 3) :
    (runAfter s (4 * q + j)).round s.sk (q + 1) (3 * q + j + 1) = runAfter s (4 * q + j + 1) := by
  rw [← emit_eq_runAfter s (recordAt_round s q hj), stateAfter_round s.sk s.finalL q hj,
    stateAfter_round s.sk s.finalL q hj]
  rfl

theorem runAfter_rounds (q : Nat) :
    (roundsOfStep (q + 1)).foldl (TrailRun.round s.sk (q + 1)) (runAfter s (4 * q)) = runAfter s (4 * q + 3) := by
  have hrounds : roundsOfStep (q + 1) = [3 * q + 0 + 1, 3 * q + 1 + 1, 3 * q + 2 + 1] := by
    rw [roundsOfStep, countUp, show 3 * (q + 1) + 1 - (3 * (q + 1) - 2) = 3 by omega]
    rfl
  calc (roundsOfStep (q + 1)).foldl (TrailRun.round s.sk (q + 1)) (runAfter s (4 * q))
    _ = (((runAfter s (4 * q + 0)).round s.sk (q + 1) (3 * q + 0 + 1)).round s.sk (q + 1) (3 * q + 1 + 1)).round
          s.sk (q + 1) (3 * q + 2 + 1) := by rw [hrounds]; rfl
    _ = runAfter s (4 * q + 3) := by
      rw [runAfter_round s q (by decide : 0 < 3), runAfter_round s q (by decide : 1 < 3),
        runAfter_round s q (by decide : 2 < 3)]

theorem runAfter_step (q : Nat) :
    (runAfter s (4 * q)).step s.sk s.finalL (q + 1) = runAfter s (recordCount s.finalL (q + 1)) := by
  simp only [TrailRun.step, runAfter_rounds, recordCount]
  split
  case isTrue hlayer =>
    rw [show 4 * (q + 1) = 4 * q + 3 + 1 by omega, ← emit_eq_runAfter s (recordAt_layer s q),
      stateAfter_layer s.sk hlayer, stateAfter_layer s.sk hlayer]
    rfl
  case isFalse => rw [show 4 * (q + 1) - 1 = 4 * q + 3 by omega]

/-- Every step but the last of TRAIL 8 has its four records, so each step starts after a whole number of them. -/
theorem foldl_step_eq_runAfter {n : Nat} (h : n ≤ 8) :
    (countUp 1 n).foldl (TrailRun.step s.sk s.finalL) ⟨s.x, s.y, 0, s.trail⟩ =
      runAfter s (recordCount s.finalL n) := by
  induction n with
  | zero => exact (runAfter_zero s).symm
  | succ n ih =>
    rw [countUp_succ _ _ (by omega), List.foldl_concat, ih (by omega), recordCount_of_ne_eight _ (by omega),
      runAfter_step]

theorem propagate_eq {n : Nat} (h1 : 1 ≤ n) (h8 : n ≤ 8) :
    propagate s.sk s.finalL n ⟨s.x, s.y, 0, s.trail⟩ =
      ⟨encryptSteps s.sk s.finalL 1 n s.x, encryptSteps s.sk s.finalL 1 n s.y, recordCount s.finalL n,
        trailAfter s (recordCount s.finalL n)⟩ := by
  simp only [propagate, foldl_step_eq_runAfter s h8, runAfter, stateAfter_recordCount s.sk s.finalL h1, encryptSteps]
  split <;> rfl

/-! ### The command with a legal count and a valid schedule -/

theorem exec_trail {n : Nat} (h1 : 1 ≤ n) (h8 : n ≤ 8) (hksv : s.ksv = true) :
    exec (.trail n) s = .next
      ({ s with
          x := encryptSteps s.sk s.finalL 1 n s.x
          y := encryptSteps s.sk s.finalL 1 n s.y
          trail := trailAfter s (recordCount s.finalL n)
          trailCount := BitVec.ofNat 16 (recordCount s.finalL n) } : State).complete := by
  have hlegal : legalCount n = true := decide_eq_true ⟨h1, h8⟩
  show execTrail n s = _
  rw [execTrail, runCommand_accepted _ hlegal fun _ => hksv, propagate_eq s h1 h8]

end

/-! ### Differences -/

theorem xor_whiten (sk : Vector SubkeyGroup 17) (x y : Block) : (whiten sk x).xor (whiten sk y) = x.xor y := by
  have cancel (v w g : Word) : (v ^^^ g) ^^^ (w ^^^ g) = v ^^^ w :=
    calc (v ^^^ g) ^^^ (w ^^^ g) = (v ^^^ w) ^^^ (g ^^^ g) := by ac_rfl
      _ = v ^^^ w := by simp
  simp only [Block.xor, whiten, cancel]

/-- The terminal whitening keeps differences, so it needs no record (rules R95, R96). -/
theorem xor_encryptSteps (sk : Vector SubkeyGroup 17) (finalL : Bool) (n : Nat) (x y : Block) :
    (encryptSteps sk finalL 1 n x).xor (encryptSteps sk finalL 1 n y) =
      ((countUp 1 n).foldl (encryptStep sk finalL) x).xor ((countUp 1 n).foldl (encryptStep sk finalL) y) := by
  unfold encryptSteps
  split
  · exact xor_whiten sk _ _
  · rfl

theorem last_record_difference (s : State) {n : Nat} (h : 1 ≤ n) :
    (recordAt s (recordCount s.finalL n - 1)).difference =
      (encryptSteps s.sk s.finalL 1 n s.x).xor (encryptSteps s.sk s.finalL 1 n s.y) := by
  rw [recordAt_difference, Nat.sub_add_cancel (recordCount_pos s.finalL h), stateAfter_recordCount s.sk s.finalL h,
    stateAfter_recordCount s.sk s.finalL h, xor_encryptSteps]

/-- A record of kind 1 names the round r it follows, and holds the difference after the steps before r's and the rounds
up to r. -/
theorem recordAt_kind_one {s : State} {m : Nat} (hm : m < 32) (hkind : (recordAt s m).kind = 1) :
    ∃ q j, q < 8 ∧ j < 3 ∧ (recordAt s m).round.toNat = 3 * q + 1 + j ∧
      (recordAt s m).difference =
        (stateAfter s.sk s.finalL (4 * q + (j + 1)) s.x).xor (stateAfter s.sk s.finalL (4 * q + (j + 1)) s.y) := by
  have hround : m % 4 ≠ 3 := fun h => by simp [recordAt, h] at hkind
  have hj : m % 4 < 3 := by omega
  refine ⟨m / 4, m % 4, by omega, hj, ?_, ?_⟩
  · rw [← Nat.div_add_mod m 4, recordAt_round s (m / 4) hj, TrailRecord.make_round, BitVec.toNat_ofNat]
    omega
  · rw [recordAt_difference, ← Nat.add_assoc, Nat.div_add_mod]

/-- The commands of rule R96 for round position j of step q + 1: ENCS up to step q, or nothing before step 1, then ENCR
up to the round. -/
theorem exec_stateAfter {s : State} {q j : Nat} (hq : q < 8) (hj : j < 3) (hksv : s.ksv = true) :
    ∃ u u', (if q + 1 = 1 then u = s else exec (.encs 1 q) s = .next u) ∧
      exec (.encr (3 * q + 1) (3 * q + 1 + j)) u = .next u' ∧
      u'.x = stateAfter s.sk s.finalL (4 * q + (j + 1)) s.x := by
  have hrounds : legalRounds (3 * q + 1) (3 * q + 1 + j) = true := decide_eq_true (by omega)
  rw [stateAfter_eq s.sk s.finalL q (by omega), show 3 * q + (j + 1) = 3 * q + 1 + j by omega]
  split
  case isTrue hfirst =>
    obtain rfl : q = 0 := Nat.succ.inj hfirst
    exact ⟨s, _, rfl, exec_encr hrounds hksv, rfl⟩
  case isFalse =>
    have hsteps : legalSteps 1 q = true := decide_eq_true (by omega)
    refine ⟨_, _, exec_encs hsteps hksv, exec_encr hrounds hksv, ?_⟩
    show encryptRounds s.sk _ _ (encryptSteps s.sk s.finalL 1 q s.x) = _
    rw [encryptSteps, if_neg hq.ne]

end Sys2Proof.Machine
end

section
/-! The obligation of trail propagation (45_trail.md, rule R96). -/

namespace Sys2Proof.Proofs

open Sys2Proof.Machine Sys2Proof.Statements

/-- Settles O26: TRAIL is one update with an explicit buffer, so each record's difference is that of the states it was
made for; those of a round are what the commands reach, and the whitening after the last record keeps differences. -/
theorem trailAgreesWithDirectEncryption : Obligations.TrailAgreesWithDirectEncryption := by
  intro s t n h1 h8 hksv hexec
  obtain rfl := next_unique hexec (exec_trail s h1 h8 hksv)
  have hcount := toNat_ofNat_recordCount s.finalL h8
  have hle := recordCount_le s.finalL n
  have hpos := recordCount_pos s.finalL h1
  have hlegal : legalSteps 1 n = true := decide_eq_true ⟨le_rfl, h1, h8⟩
  refine ⟨⟨_, _, exec_encs hlegal hksv, exec_encs hlegal hksv, rfl, rfl⟩, ?last, ?rounds⟩
  case last =>
    refine ⟨⟨recordCount s.finalL n - 1, by omega⟩, (Nat.sub_add_cancel hpos).trans hcount.symm, ?_⟩
    refine Eq.trans ?_ (last_record_difference s h1)
    exact congrArg TrailRecord.difference (trailAfter_get_of_lt s (Nat.sub_one_lt hpos.ne'))
  case rounds =>
    intro m r hm hkind hr
    have hrecord : (trailAfter s (recordCount s.finalL n))[m] = recordAt s m.val :=
      trailAfter_get_of_lt s (hm.trans_eq hcount)
    rw [State.complete_trail, hrecord] at hkind hr ⊢
    obtain ⟨q, j, hq, hj, hround, hdifference⟩ := recordAt_kind_one m.isLt hkind
    obtain rfl : r = 3 * q + 1 + j := hr.symm.trans hround
    have hstep : stepOf (3 * q + 1 + j) = q + 1 := stepOf_roundAt (Nat.succ_pos q) hj
    obtain ⟨u, u', hu, hu', hux⟩ := exec_stateAfter (s := s) hq hj hksv
    obtain ⟨v, v', hv, hv', hvx⟩ := exec_stateAfter (s := { s with x := s.y }) hq hj hksv
    rw [hstep]
    refine ⟨u, v, u', v', ?_, hu', hv', by rw [hdifference, hux, hvx]⟩
    split_ifs at hu hv ⊢
    · exact ⟨hu, hv⟩
    · exact ⟨hu, hv⟩

end Sys2Proof.Proofs
end

section
/-! SUPPORT. The acceptance check by the numbers in a command word's fields, a submission as one update of the state, and
the fields of STATUS (60_exceptions.md, rules R98 to R100). -/

namespace Sys2Proof.Machine

/-! ### The acceptance check, cause by cause -/

/-- The illegal OPs are 0 and 9 to 15 (rules R55, R99). -/
theorem operationOf_eq_none {op : BitVec 4} : operationOf op = none ↔ op.toNat = 0 ∨ 9 ≤ op.toNat := by
  revert op
  decide

theorem eq_code_of_operationOf {op : BitVec 4} {o : Opcode} (h : operationOf op = some o) : op = o.code := by
  revert op
  cases o <;> decide

/-- The operand bits of a command word are FROM and TO (rule R53). -/
theorem operands_ne_zero (v : Word) : v.extractLsb 9 0 ≠ 0 ↔ fromField v ≠ 0 ∨ toField v ≠ 0 := by
  have hjoin : v.extractLsb 9 0 = fromField v ++ toField v :=
    (BitVec.extractLsb'_append_extractLsb'_eq_extractLsb' (x := v) (start₁ := 0) (len₁ := 5) (len₂ := 5) rfl).symm
  rw [hjoin, ← not_and_or]
  exact not_congr (append_eq_append (fromField v) 0 (toField v) 0)

/-- The must-be-zero fields by the number in OP (rule R99, ERSV). -/
theorem operandBitsReserved_iff (o : Opcode) (v : Word) :
    operandBitsReserved o v = true ↔
      ((o.code.toNat = 1 ∨ o.code.toNat = 6 ∨ o.code.toNat = 7) ∧ v.extractLsb 9 0 ≠ 0) ∨
      (o.code.toNat = 8 ∧ (fromField v).toNat ≠ 0) := by
  rw [operands_ne_zero]
  cases o <;> simp [operandBitsReserved, Opcode.code, BitVec.toNat_eq]

/-- The illegal operands by the number in OP (rule R99, ERANGE). -/
theorem not_operandsInRange_iff (o : Opcode) (v : Word) :
    (!operandsInRange o v) = true ↔
      ((o.code.toNat = 2 ∨ o.code.toNat = 3) ∧
        ¬ (1 ≤ (fromField v).toNat ∧ (fromField v).toNat ≤ (toField v).toNat ∧ (toField v).toNat ≤ 24)) ∨
      ((o.code.toNat = 4 ∨ o.code.toNat = 5) ∧
        ¬ (1 ≤ (fromField v).toNat ∧ (fromField v).toNat ≤ (toField v).toNat ∧ (toField v).toNat ≤ 8)) ∨
      (o.code.toNat = 8 ∧ ¬ (1 ≤ (toField v).toNat ∧ (toField v).toNat ≤ 8)) := by
  cases o <;> simp [operandsInRange, legalRounds, legalSteps, legalCount, Opcode.code, -Bool.decide_and, -not_and]

/-- The commands that use the key, by the number in OP (rule R99, ENOKEY). -/
theorem needsSchedule_iff (o : Opcode) :
    needsSchedule o = true ↔
      o.code.toNat = 2 ∨ o.code.toNat = 3 ∨ o.code.toNat = 4 ∨ o.code.toNat = 5 ∨ o.code.toNat = 8 := by
  cases o <;> decide

theorem check_of_illegal {v : Word} (ksv : Bool) (hop : operationOf (opField v) = none) : check v ksv = .illop := by
  rw [check, hop]

/-- With a legal OP, the three tests left of rule R99 in their order. -/
theorem check_of_operation {v : Word} {o : Opcode} (ksv : Bool) (hop : operationOf (opField v) = some o) :
    check v ksv =
      if rsvField v != 0 || operandBitsReserved o v then .rsv
      else if !operandsInRange o v then .range
      else if !ksv && needsSchedule o then .nokey
      else .none := by
  rw [check, hop]

/-! ### A submission as one update -/

/-- A CMD write while BUSY = 0 is a submission (rules R22, R62). -/
theorem exec_regwr_cmd {s : State} (v : Word) (hb : s.busy = false) :
    exec (.regwr 0x010 v) s = .next (s.writeCmd v) := by
  obtain ⟨-, -, -, -, hcmd⟩ := regWrite_idle v hb
  rw [exec_regwr, hcmd]

@[simp] theorem writeCmd_cmd (s : State) (v : Word) : (s.writeCmd v).cmd = v := by
  rcases writeCmd_cases s v with ⟨-, h⟩ | ⟨-, h⟩ <;> simp [h]

/-- An accepted word (rule R98). -/
theorem writeCmd_accepted {s : State} {v : Word} (hc : check v s.ksv = .none) :
    s.writeCmd v = (s.storeCmd v).accept v := by
  rcases writeCmd_cases s v with ⟨-, h⟩ | ⟨hn, -⟩
  · exact h
  · exact absurd hc hn

/-- A rejected word: nothing was pending, so its rejection leaves PENDING as it is (rule R100). -/
theorem writeCmd_rejected {s : State} {v : Word} (hb : s.busy = false) (hc : check v s.ksv ≠ .none) :
    s.writeCmd v = { s with cmd := v, err := true, ecode := check v s.ksv, done := false } := by
  have hp : s.pending = none := s.busy_eq_false.mp hb
  rcases writeCmd_cases s v with ⟨hn, -⟩ | ⟨-, h⟩
  · exact absurd hn hc
  · rw [h, State.reject, State.storeCmd, hp]

/-! ### The fields of STATUS (rule R23) -/

theorem statusWord_busy (s : State) : s.statusWord.getLsbD 0 = s.busy := by
  simp only [State.statusWord, BitVec.getLsbD_append]
  simp

theorem statusWord_done (s : State) : s.statusWord.getLsbD 1 = s.done := by
  simp only [State.statusWord, BitVec.getLsbD_append]
  simp

theorem statusWord_err (s : State) : s.statusWord.getLsbD 2 = s.err := by
  simp only [State.statusWord, BitVec.getLsbD_append]
  simp

theorem statusWord_ecode (s : State) : s.statusWord.extractLsb 11 8 = s.ecode.bits := by
  refine BitVec.eq_of_getLsbD_eq fun i (hi : i < 4) => ?_
  simp only [State.statusWord, BitVec.getLsbD_append, BitVec.getLsbD_extractLsb]
  interval_cases i <;> simp

end Sys2Proof.Machine
end

section
/-! The obligations of the command word's acceptance and rejection (60_exceptions.md, rules R98 to R101). -/

namespace Sys2Proof.Proofs

open Sys2Proof.Machine Sys2Proof.Statements

/-- Settles O6: an illegal OP is the first cause; with a legal one, each cause is the model's test of that operation. -/
theorem checkGivesTheFirstCause : Obligations.CheckGivesTheFirstCause := by
  intro v ksv op lo hi illop rsv range nokey
  have hrecorded : ∀ s : State, s.busy = false → s.ksv = ksv →
      ∃ t, exec (.regwr 0x010 v) s = .next t ∧ t.ecode = check v ksv ∧ t.cmd = v ∧
        (t.err = true ↔ check v ksv ≠ .none) := by
    rintro s hb rfl
    exact ⟨_, exec_regwr_cmd v hb, writeCmd_ecode s v, writeCmd_cmd s v, writeCmd_err s v⟩
  cases hop : operationOf (opField v) with
  | none =>
    have hillop : illop := operationOf_eq_none.mp hop
    exact ⟨fun _ => check_of_illegal ksv hop, fun h => absurd hillop h, fun h => absurd hillop h,
      fun h => absurd hillop h, fun h => absurd hillop h, ⟨rfl, rfl, rfl, rfl⟩, hrecorded⟩
  | some o =>
    have hcode : op = o.code.toNat := congrArg BitVec.toNat (eq_code_of_operationOf hop)
    have hillop : ¬ illop := fun h => nomatch hop.symm.trans (operationOf_eq_none.mpr h)
    have hrsv : (rsvField v != 0 || operandBitsReserved o v) = true ↔ rsv := by
      simp only [rsv, hcode, Bool.or_eq_true, bne_iff_ne, operandBitsReserved_iff, lo]
    have hrange : (!operandsInRange o v) = true ↔ range := by
      simp only [range, hcode, not_operandsInRange_iff, lo, hi]
    have hnokey : (!ksv && needsSchedule o) = true ↔ nokey := by
      simp only [nokey, hcode, Bool.and_eq_true, Bool.not_eq_true', needsSchedule_iff]
    refine ⟨fun h => absurd h hillop, fun _ h => ?_, fun _ h1 h => ?_, fun _ h1 h2 h => ?_,
      fun _ h1 h2 h3 => ?_, ⟨rfl, rfl, rfl, rfl⟩, hrecorded⟩ <;>
      rw [check_of_operation ksv hop]
    · rw [if_pos (hrsv.mpr h)]
    · rw [if_neg (mt hrsv.mp h1), if_pos (hrange.mpr h)]
    · rw [if_neg (mt hrsv.mp h1), if_neg (mt hrange.mp h2), if_pos (hnokey.mpr h)]
    · rw [if_neg (mt hrsv.mp h1), if_neg (mt hrange.mp h2), if_neg (mt hnokey.mp h3)]

/-- Settles O8: a guarded write while BUSY = 1 is dropped, and a rejection leaves BWE. -/
theorem busyWriteIsDropped : Obligations.BusyWriteIsDropped := by
  refine ⟨fun s a v hb ha => ?_, fun s v hb hbwe hc => ⟨_, exec_regwr_cmd v hb, ?_, ?_⟩⟩
  · rw [exec_regwr, regWrite_busy a v hb ha, State.busyWrite]
  · rw [writeCmd_rejected hb hc]
    exact hbwe
  · exact (writeCmd_err s v).mpr hc

/-- Settles O12: a CMD write while BUSY = 0 is a submission, and the check decides which of its two updates is made. -/
theorem commandWordIsSubmitted : Obligations.CommandWordIsSubmitted := by
  refine fun s v hb => ⟨fun hc => ?_, fun hc => ?_⟩
  · have hop : opField v = 0x1 ↔ (opField v).toNat = 1 := BitVec.toNat_eq
    rw [exec_regwr_cmd v hb, writeCmd_accepted hc]
    simp only [State.accept, State.storeCmd, hop]
  · rw [exec_regwr_cmd v hb, writeCmd_rejected hb hc]

/-- Settles O13: the rejecting submission as one update, and the fields of the STATUS word read after it. -/
theorem rejectionIsPrecise : Obligations.RejectionIsPrecise := by
  intro s v hb hc
  obtain ⟨-, hreject⟩ := commandWordIsSubmitted s v hb
  obtain ⟨hstatus, -⟩ := statusWriteOnlyClearsBwe
  refine ⟨_, hreject hc, rfl, hb, _, (hstatus _ v).2, ?_, ?_, ?_, ?_⟩
  · exact statusWord_err _
  · exact statusWord_ecode _
  · exact (statusWord_busy _).trans hb
  · exact statusWord_done _

end Sys2Proof.Proofs
end

section
/-! SUPPORT. A command word made of its fields and taken apart again (30_encoding.md, rules R53 to R57). -/

namespace Sys2Proof

open Machine

/-! ### The encoder by fields -/

theorem fields_append (op : BitVec 4) (rsv : BitVec 2) (lo hi : BitVec 5) :
    opField (op ++ (rsv ++ (lo ++ hi))) = op ∧ rsvField (op ++ (rsv ++ (lo ++ hi))) = rsv ∧
      fromField (op ++ (rsv ++ (lo ++ hi))) = lo ∧ toField (op ++ (rsv ++ (lo ++ hi))) = hi := by
  have h := (word_eq_fields (op ++ (rsv ++ (lo ++ hi)))).symm
  obtain ⟨hop, h⟩ := (append_eq_append _ op _ _).mp h
  obtain ⟨hrsv, h⟩ := (append_eq_append _ rsv _ _).mp h
  obtain ⟨hlo, hhi⟩ := (append_eq_append _ lo _ hi).mp h
  exact ⟨hop, hrsv, hlo, hhi⟩

/-- The shifts of rule R60 put each number into its field, when the field can hold it. -/
theorem commandWord_eq_append (o : Opcode) {lo hi : Nat} (hlo : lo < 32) (hhi : hi < 32) :
    commandWord o lo hi = o.code ++ (0#2 ++ (BitVec.ofNat 5 lo ++ BitVec.ofNat 5 hi)) := by
  have above {n i : Nat} (hn : n < 32) (hi : 5 ≤ i) : n.testBit i = false :=
    Nat.testBit_lt_two_pow (hn.trans_le (Nat.pow_le_pow_right two_pos hi))
  refine BitVec.eq_of_getLsbD_eq (w := 16) fun i hi16 => ?_
  simp only [commandWord, BitVec.getLsbD_or, BitVec.getLsbD_shiftLeft, BitVec.getLsbD_append, BitVec.getLsbD_ofNat,
    BitVec.getLsbD_setWidth]
  interval_cases i <;> simp [above hlo, above hhi]

/-- The numbers an operation leaves unused are zero: no operand for KSCHED, LFWD and LINV, no FROM for TRAIL. -/
def Opcode.unusedZero : Opcode → Nat → Nat → Prop
  | .ksched, lo, hi | .lfwd, lo, hi | .linv, lo, hi => lo = 0 ∧ hi = 0
  | .trail, lo, _ => lo = 0
  | .encr, _, _ | .decr, _, _ | .encs, _, _ | .decs, _, _ => True

/-- With the unused numbers zero, an operation's instruction is encoded as its word. -/
theorem encode_instr {o : Opcode} {lo hi : Nat} (h : o.unusedZero lo hi) :
    encode (o.instr lo hi) = .command (commandWord o lo hi) := by
  cases o
  case ksched | lfwd | linv => obtain ⟨rfl, rfl⟩ := h; rfl
  case trail => obtain rfl : lo = 0 := h; rfl
  all_goals rfl

theorem operationOf_code (o : Opcode) : operationOf o.code = some o := by
  cases o <;> rfl

/-- The must-be-zero fields of a word are the numbers its operation leaves unused (rule R56). -/
theorem operandBitsReserved_eq_false (o : Opcode) (w : Word) :
    operandBitsReserved o w = false ↔ o.unusedZero (fromField w).toNat (toField w).toNat := by
  have toNat_zero (v : BitVec 5) : v.toNat = 0 ↔ v = 0 := BitVec.toNat_inj (y := 0)
  cases o <;> simp [operandBitsReserved, Opcode.unusedZero, toNat_zero]

/-- The decoder on the word of an operation with its two numbers, each in its field's range. -/
theorem decode_commandWord {o : Opcode} {lo hi : Nat} (hlo : lo < 32) (hhi : hi < 32) (h : o.unusedZero lo hi) :
    decode (.command (commandWord o lo hi)) = some (o.instr lo hi) := by
  obtain ⟨hop, hrsv, hfrom, hto⟩ := fields_append o.code 0#2 (BitVec.ofNat 5 lo) (BitVec.ofNat 5 hi)
  rw [← commandWord_eq_append o hlo hhi] at hop hrsv hfrom hto
  have hfrom' : (fromField (commandWord o lo hi)).toNat = lo := by
    rw [hfrom, BitVec.toNat_ofNat, Nat.mod_eq_of_lt hlo]
  have hto' : (toField (commandWord o lo hi)).toNat = hi := by rw [hto, BitVec.toNat_ofNat, Nat.mod_eq_of_lt hhi]
  have hzero : operandBitsReserved o (commandWord o lo hi) = false := by
    rw [operandBitsReserved_eq_false, hfrom', hto']
    exact h
  have hrsv' : (rsvField (commandWord o lo hi) != 0) = false := by rw [hrsv]; rfl
  show decodeCommand _ = _
  simp only [decodeCommand_eq, hop, operationOf_code, hrsv', hzero, hfrom', hto']
  rfl

/-- What a command word is when it decodes: its operation's word, of the numbers in its fields (rules R55 to R57). -/
theorem decode_command_eq_some {w : Word} {i : Instr} (h : decode (.command w) = some i) :
    ∃ o : Opcode, o.unusedZero (fromField w).toNat (toField w).toNat ∧
      i = o.instr (fromField w).toNat (toField w).toNat ∧
      commandWord o (fromField w).toNat (toField w).toNat = w := by
  have hd : decodeCommand w = some i := h
  rw [decodeCommand_eq] at hd
  cases hop : operationOf (opField w) with
  | none => simp [hop] at hd
  | some o =>
    simp only [hop] at hd
    split at hd
    case isTrue => cases hd
    case isFalse hzero =>
      obtain ⟨hrsv, hoperands⟩ : rsvField w = 0 ∧ operandBitsReserved o w = false := by simpa using hzero
      refine ⟨o, (operandBitsReserved_eq_false o w).mp hoperands, (Option.some.inj hd).symm, ?_⟩
      rw [commandWord_eq_append o (fromField w).isLt (toField w).isLt, BitVec.ofNat_toNat, BitVec.ofNat_toNat,
        BitVec.setWidth_eq, BitVec.setWidth_eq, ← eq_code_of_operationOf hop]
      conv_rhs => rw [word_eq_fields w, hrsv]
      rfl

/-- A well-formed command is an operation with two numbers that fit their fields (rule R57). -/
theorem exists_operation {i : Instr} (hi : i.isCommand = true) (hwf : i.wellFormed = true) :
    ∃ (o : Opcode) (lo hi : Nat), lo < 32 ∧ hi < 32 ∧ o.unusedZero lo hi ∧ i = o.instr lo hi := by
  cases i with
  | regwr a v => cases hi
  | regrd a => cases hi
  | ksched => exact ⟨.ksched, 0, 0, by decide, by decide, ⟨rfl, rfl⟩, rfl⟩
  | lfwd => exact ⟨.lfwd, 0, 0, by decide, by decide, ⟨rfl, rfl⟩, rfl⟩
  | linv => exact ⟨.linv, 0, 0, by decide, by decide, ⟨rfl, rfl⟩, rfl⟩
  | encr r1 r2 =>
    obtain ⟨-, h12, h24⟩ := of_decide_eq_true hwf
    exact ⟨.encr, r1, r2, by omega, by omega, trivial, rfl⟩
  | decr r1 r2 =>
    obtain ⟨-, h12, h24⟩ := of_decide_eq_true hwf
    exact ⟨.decr, r1, r2, by omega, by omega, trivial, rfl⟩
  | encs s1 s2 =>
    obtain ⟨-, h12, h8⟩ := of_decide_eq_true hwf
    exact ⟨.encs, s1, s2, by omega, by omega, trivial, rfl⟩
  | decs s1 s2 =>
    obtain ⟨-, h12, h8⟩ := of_decide_eq_true hwf
    exact ⟨.decs, s1, s2, by omega, by omega, trivial, rfl⟩
  | trail n =>
    obtain ⟨-, h8⟩ := of_decide_eq_true hwf
    exact ⟨.trail, 0, n, by decide, by omega, rfl, rfl⟩

/-- A word that decodes to nothing has an illegal OP or a nonzero bit where zero is required: the first two causes of
rule R99. -/
theorem check_of_not_decode {w : Word} (ksv : Bool) (h : decode (.command w) = none) :
    check w ksv = .illop ∨ check w ksv = .rsv := by
  have hd : decodeCommand w = none := h
  rw [decodeCommand_eq] at hd
  cases hop : operationOf (opField w) with
  | none => exact .inl (check_of_illegal ksv hop)
  | some o =>
    simp only [hop] at hd
    split at hd
    case isTrue hrsv => exact .inr (by rw [check_of_operation ksv hop, if_pos hrsv])
    case isFalse => cases hd

/-! ### The opcode map by OP -/

/-- Every row of the map masks OP whole, so a selected word has the row's OP (rule R55). -/
theorem opField_of_selects {w : Word} {row : OpcodeRow} (hrow : row ∈ opcodeTable) (h : row.selects w = true) :
    opField w = opField row.pattern := by
  have hmask : ∀ row ∈ opcodeTable, opField row.mask = 0xF := by decide
  have hw : w &&& row.mask = row.pattern := eq_of_beq h
  have hand : opField (w &&& row.mask) = opField w &&& opField row.mask := BitVec.extractLsb'_and
  rw [← hw, hand, hmask row hrow]
  exact (and_ones4 _).symm

/-- No two rows of the map have one OP (rule R55). -/
theorem row_eq_of_opField : ∀ row ∈ opcodeTable, ∀ row' ∈ opcodeTable,
    opField row.pattern = opField row'.pattern → row = row' := by decide

end Sys2Proof
end

section
/-! The obligations of the encoding (30_encoding.md, rules R53 to R57). -/

namespace Sys2Proof.Proofs

open Sys2Proof.Machine

/-- Settles O1: a well-formed command is an operation with numbers that fit its fields, and the decoder reads each field
back; a bus transaction is its own encoding. -/
theorem decodeOfEncodeIsTheInstruction : Obligations.DecodeOfEncodeIsTheInstruction := by
  intro i hwf
  cases hi : i.isCommand with
  | true =>
    obtain ⟨o, lo, hi, hlo, hhi, hzero, rfl⟩ := exists_operation hi hwf
    rw [encode_instr hzero, decode_commandWord hlo hhi hzero]
  | false =>
    cases i with
    | regwr a v => rfl
    | regrd a => rfl
    | _ => cases hi

/-- Settles O2: a command word that decodes is its operation's word of its own fields, and that word is what the
instruction is encoded as; a bus transaction is its own encoding. -/
theorem encodeOfDecodeIsTheWord : Obligations.EncodeOfDecodeIsTheWord := by
  intro f i h
  cases f with
  | command w =>
    obtain ⟨o, hzero, rfl, hw⟩ := decode_command_eq_some h
    rw [encode_instr hzero, hw]
  | bus t =>
    obtain rfl := Option.some.inj h
    cases t <;> rfl

/-- Settles O3: a row selects words of its own OP alone, and no two rows have one OP. -/
theorem noTwoOpcodeRowsOverlap : Obligations.NoTwoOpcodeRowsOverlap :=
  fun _ row hrow row' hrow' h h' =>
    row_eq_of_opField row hrow row' hrow' ((opField_of_selects hrow h).symm.trans (opField_of_selects hrow' h'))

/-- Settles O5: a word that decodes is checked for its operands and its key alone, and one that does not is stopped by
the tests before those. -/
theorem checkAgreesWithDecoder : Obligations.CheckAgreesWithDecoder := by
  intro w ksv
  cases hd : decode (.command w) with
  | none =>
    have hcheck := check_of_not_decode ksv hd
    refine ⟨⟨fun h => ?_, fun ⟨i, hi, _⟩ => nomatch hi⟩, fun _ => hcheck, fun _ => rfl⟩
    simp [h] at hcheck
  | some i =>
    rw [check_of_decode ksv hd]
    cases hwf : i.wellFormed with
    | false => simp [hwf]
    | true => cases hkey : i.usesKey <;> cases ksv <;> simp [hwf, hkey]

/-- Settles O4: each word is decoded by running the decoder on it. -/
theorem specWordsDecode : Obligations.SpecWordsDecode := by
  unfold Obligations.SpecWordsDecode
  decide

end Sys2Proof.Proofs
end

section
/-! SUPPORT. What one move can do to the data registers, to the tables and to BWE (10_state.md, rules R15 to R32): the
engine's turn on a command, and a host write. -/

namespace Sys2Proof.Machine

open Sys2Proof.Safety Sys2Proof.Statements

/-! ### The engine's turn -/

/-- The write sets of rule R64: KSCHED's, TRAIL's, and X alone for every other command. -/
theorem writesWithin_cases {i : Instr} {s u : State} (h : WritesWithin i s u) :
    (i = .ksched ∧ u = { s with sk := u.sk, kreg := u.kreg, ksv := true, skWritten := true }) ∨
    ((∃ n, i = .trail n) ∧ u = { s with x := u.x, y := u.y, trail := u.trail, trailCount := u.trailCount }) ∨
    (i ≠ .ksched ∧ u = s.setX u.x) := by
  cases i with
  | ksched => exact .inl ⟨rfl, h⟩
  | trail n => exact .inr (.inl ⟨⟨n, rfl⟩, h⟩)
  | _ => exact .inr (.inr ⟨Instr.noConfusion, h⟩)

/-- A command's arm answers an effect within its write set, completed, when both tests pass, and a rejection when one
fails (rules R35, R64, R100). -/
theorem exec_command_writes {i : Instr} {s t : State} (hi : i.isCommand = true) (h : exec i s = .next t) :
    (i.wellFormed = true ∧ (i.usesKey = true → s.ksv = true) ∧ ∃ u, WritesWithin i s u ∧ t = u.complete) ∨
    (i.wellFormed = false ∧ t = s.reject .range) ∨
    (i.wellFormed = true ∧ i.usesKey = true ∧ s.ksv = false ∧ t = s.reject .nokey) := by
  obtain ⟨effect, hexec, hwrites⟩ := exec_eq_runCommand_writesWithin s hi
  obtain rfl := next_unique h hexec
  rcases runCommand_cases i.wellFormed i.usesKey s effect with ⟨hwf, hkey, hrun⟩ | hrun | hrun
  · exact .inl ⟨hwf, hkey, _, hwrites, hrun⟩
  · exact .inr (.inl hrun)
  · exact .inr (.inr hrun)

/-- What the engine's turn on a command can change of the data registers and tables. -/
theorem exec_command_changes {i : Instr} {s t : State} (hi : i.isCommand = true) (h : exec i s = .next t) :
    t.key = s.key ∧ (t.x ≠ s.x → i ≠ .ksched) ∧ (t.y ≠ s.y → ∃ n, i = .trail n) ∧ t.finalL = s.finalL ∧
    t.cmd = s.cmd ∧ (t.sk ≠ s.sk → i = .ksched) ∧
    (t.trail ≠ s.trail ∨ t.trailCount ≠ s.trailCount → ∃ n, i = .trail n) := by
  rcases exec_command_writes hi h with ⟨-, -, u, hwrites, rfl⟩ | ⟨-, rfl⟩ | ⟨-, -, -, rfl⟩
  case inl =>
    rcases writesWithin_cases hwrites with ⟨hk, hu⟩ | ⟨ht, hu⟩ | ⟨hk, hu⟩ <;> rw [hu]
    · exact ⟨rfl, absurd rfl, absurd rfl, rfl, rfl, fun _ => hk, (·.elim (absurd rfl) (absurd rfl))⟩
    · obtain ⟨n, rfl⟩ := ht
      exact ⟨rfl, fun _ => Instr.noConfusion, fun _ => ⟨n, rfl⟩, rfl, rfl, absurd rfl, fun _ => ⟨n, rfl⟩⟩
    · exact ⟨rfl, fun _ => hk, absurd rfl, rfl, rfl, absurd rfl, (·.elim (absurd rfl) (absurd rfl))⟩
  all_goals exact ⟨rfl, absurd rfl, absurd rfl, rfl, rfl, absurd rfl, (·.elim (absurd rfl) (absurd rfl))⟩

/-- The engine's turn leaves BWE and the host's side alone. -/
theorem exec_command_frame {i : Instr} {s t : State} (hi : i.isCommand = true) (h : exec i s = .next t) :
    t.bwe = s.bwe ∧ t.program = s.program ∧ t.schedule = s.schedule := by
  rcases exec_command_cases s hi with ⟨u, hu, he⟩ | ⟨-, he⟩ | ⟨-, -, he⟩ <;>
    obtain rfl := next_unique h he
  · exact ⟨hu.bwe, hu.program, hu.schedule⟩
  · exact ⟨rfl, rfl, rfl⟩
  · exact ⟨rfl, rfl, rfl⟩

/-! ### A host write -/

/-- What a host write can change of the data registers and tables (rules R15 to R22, R31, R62). -/
theorem regWrite_changes (s : State) (a : Addr) (v : Word) :
    ((s.regWrite a v).key ≠ s.key → s.busy = false ∧ ∃ i, a = keyAddr i) ∧
    ((s.regWrite a v).x ≠ s.x → s.busy = false ∧ ∃ i, a = xAddr i) ∧
    ((s.regWrite a v).y ≠ s.y → s.busy = false ∧ ∃ i, a = yAddr i) ∧
    ((s.regWrite a v).finalL ≠ s.finalL → s.busy = false ∧ a = 0x012) ∧
    ((s.regWrite a v).cmd ≠ s.cmd → s.busy = false ∧ a = 0x010) ∧
    (s.regWrite a v).sk = s.sk ∧ (s.regWrite a v).trail = s.trail ∧ (s.regWrite a v).trailCount = s.trailCount := by
  rcases regWrite_cases s a v with ⟨-, h⟩ | ⟨-, -, h⟩ | ⟨hb, i, ha, h⟩ | ⟨hb, i, ha, h⟩ | ⟨hb, i, ha, h⟩ |
    ⟨hb, ha, h⟩ | ⟨hb, ha, h⟩ | ⟨-, h⟩ <;> rw [h]
  case inr.inr.inl =>
    exact ⟨fun _ => ⟨hb, i, ha⟩, absurd rfl, absurd rfl, absurd rfl, absurd rfl, rfl, rfl, rfl⟩
  case inr.inr.inr.inl =>
    exact ⟨absurd rfl, fun _ => ⟨hb, i, ha⟩, absurd rfl, absurd rfl, absurd rfl, rfl, rfl, rfl⟩
  case inr.inr.inr.inr.inl =>
    exact ⟨absurd rfl, absurd rfl, fun _ => ⟨hb, i, ha⟩, absurd rfl, absurd rfl, rfl, rfl, rfl⟩
  case inr.inr.inr.inr.inr.inl =>
    exact ⟨absurd rfl, absurd rfl, absurd rfl, fun _ => ⟨hb, ha⟩, absurd rfl, rfl, rfl, rfl⟩
  case inr.inr.inr.inr.inr.inr.inl =>
    rcases writeCmd_cases s v with ⟨-, hc⟩ | ⟨-, hc⟩ <;> rw [hc] <;>
      exact ⟨absurd rfl, absurd rfl, absurd rfl, absurd rfl, fun _ => ⟨hb, ha⟩, rfl, rfl, rfl⟩
  all_goals exact ⟨absurd rfl, absurd rfl, absurd rfl, absurd rfl, absurd rfl, rfl, rfl, rfl⟩

@[simp] theorem writeCmd_bwe (s : State) (v : Word) : (s.writeCmd v).bwe = s.bwe := by
  rcases writeCmd_cases s v with ⟨-, h⟩ | ⟨-, h⟩ <;> rw [h] <;> rfl

/-- The two host writes that can change BWE: a guarded one while BUSY = 1, and one to STATUS with bit 4 (rules R28,
R30). -/
theorem regWrite_bwe (s : State) (a : Addr) (v : Word) :
    (s.regWrite a v).bwe = s.bwe ∨ (s.busy = true ∧ busyGuarded a ∧ (s.regWrite a v).bwe = true) ∨
    (a = 0x011 ∧ v.getLsbD 4 = true ∧ (s.regWrite a v).bwe = false) := by
  rcases regWrite_cases s a v with ⟨ha, h⟩ | ⟨ha, hb, h⟩ | ⟨-, i, -, h⟩ | ⟨-, i, -, h⟩ | ⟨-, i, -, h⟩ |
    ⟨-, -, h⟩ | ⟨-, -, h⟩ | ⟨-, h⟩ <;> rw [h]
  case inl =>
    cases hv : v.getLsbD 4
    · exact .inl rfl
    · exact .inr (.inr ⟨ha, rfl, rfl⟩)
  case inr.inl => exact .inr (.inl ⟨hb, ha, rfl⟩)
  case inr.inr.inr.inr.inr.inr.inl => exact .inl (writeCmd_bwe s v)
  all_goals exact .inl rfl

/-! ### A step -/

theorem SameEngine.bwe_eq {s t : State} (h : SameEngine s t) : t.bwe = s.bwe := by
  unfold SameEngine at h
  rw [h]

/-- Every way a step can change BWE (rules R28, R30, R114). -/
theorem step_bwe {s t : State} (h : step s = .next t) :
    t.bwe = s.bwe ∨ (s.mover = .reset ∧ t.bwe = false) ∨
    (s.busy = true ∧ (∃ a v, hostWrites s a v ∧ busyGuarded a) ∧ t.bwe = true) ∨
    ((∃ v : Word, hostWrites s 0x011 v ∧ v.getLsbD 4 = true) ∧ t.bwe = false) := by
  rcases step_next_cases h with ⟨hm, rfl⟩ | ⟨i, he, hx⟩ | ⟨a, v, hw, rfl⟩ | hs
  · exact .inr (.inl ⟨hm, rfl⟩)
  · exact .inl (exec_command_frame (isCommand_of_engineRuns he) hx).1
  · rcases regWrite_bwe s.takeTurn.popProgram a v with hbwe | ⟨hb, ha, hbwe⟩ | ⟨rfl, hv, hbwe⟩
    · exact .inl hbwe
    · exact .inr (.inr (.inl ⟨hb, ⟨a, v, hw, ha⟩, hbwe⟩))
    · exact .inr (.inr (.inr ⟨⟨v, hw, hv⟩, hbwe⟩))
  · exact .inl hs.bwe_eq

end Sys2Proof.Machine
end

section
/-! Who changes BWE, the data registers and the tables (10_state.md, rules R15 to R32; 60_exceptions.md, rule R101). -/

namespace Sys2Proof.Proofs

open Sys2Proof.Machine Sys2Proof.Safety Sys2Proof.Statements

/-- Settles O50, from the inversion of a step on BWE. -/
theorem bweChangesOnlyByItsEvents : Obligations.BweChangesOnlyByItsEvents := by
  refine fun s t hstep => ⟨fun ht hs => ?_, fun ht hs => ?_⟩
  · rcases step_bwe hstep with h | ⟨-, h⟩ | ⟨hb, hw, -⟩ | ⟨-, h⟩
    · simp [h, hs] at ht
    · simp [h] at ht
    · exact ⟨hb, hw⟩
    · simp [h] at ht
  · rcases step_bwe hstep with h | ⟨hm, -⟩ | ⟨-, -, h⟩ | ⟨hw, -⟩
    · simp [h, hs] at ht
    · exact .inl hm
    · simp [h] at ht
    · exact .inr hw

/-- Settles O51: apart from a reset, the engine's turn changes what its command may write, a host write the register at
its address, and every other step nothing of the engine. -/
theorem registersChangeOnlyByTheirWriters : Obligations.RegistersChangeOnlyByTheirWriters := by
  intro s t hstep hreset
  rcases step_next_cases hstep with ⟨hm, -⟩ | ⟨i, he, hx⟩ | ⟨a, v, hw, rfl⟩ | hs
  · exact absurd hm hreset
  · obtain ⟨hkey, hxs, hy, hfinal, hcmd, hsk, htrail⟩ := exec_command_changes (isCommand_of_engineRuns he) hx
    refine ⟨absurd hkey, fun h => .inr ⟨i, he, hxs h⟩, fun h => .inr ?_, absurd hfinal, absurd hcmd, fun h => ?_,
      fun h => ?_⟩
    · obtain ⟨n, rfl⟩ := hy h
      exact ⟨n, he⟩
    · obtain rfl := hsk h
      exact he
    · obtain ⟨n, rfl⟩ := htrail h
      exact ⟨n, he⟩
  · obtain ⟨hkey, hxs, hy, hfinal, hcmd, hsk, htrail, hcount⟩ := regWrite_changes s.takeTurn.popProgram a v
    refine ⟨fun h => ?_, fun h => .inl ?_, fun h => .inl ?_, fun h => ?_, fun h => ?_, absurd hsk,
      (·.elim (absurd htrail) (absurd hcount))⟩
    · obtain ⟨hb, i, rfl⟩ := hkey h
      exact ⟨hb, i, v, hw⟩
    · obtain ⟨hb, i, rfl⟩ := hxs h
      exact ⟨hb, i, v, hw⟩
    · obtain ⟨hb, i, rfl⟩ := hy h
      exact ⟨hb, i, v, hw⟩
    · obtain ⟨hb, rfl⟩ := hfinal h
      exact ⟨hb, v, hw⟩
    · obtain ⟨hb, rfl⟩ := hcmd h
      exact ⟨hb, v, hw⟩
  · rw [hs]
    exact ⟨absurd rfl, absurd rfl, absurd rfl, absurd rfl, absurd rfl, absurd rfl, (·.elim (absurd rfl) (absurd rfl))⟩

/-- Settles O52: of the host's accesses while BUSY = 1 only a write can touch the engine, and it is dropped or ignored,
or clears BWE. -/
theorem hostCannotDisturbACommandInFlight : Obligations.HostCannotDisturbACommandInFlight := by
  intro s t hb hm hstep
  rcases step_next_cases hstep with ⟨hr, -⟩ | ⟨i, ⟨he, -⟩, -⟩ | ⟨a, v, -, rfl⟩ | hs
  · cases hm.symm.trans hr
  · cases hm.symm.trans he
  · have busy : ¬ s.takeTurn.popProgram.busy = false := fun h => Bool.noConfusion (hb.symm.trans h)
    rcases regWrite_cases s.takeTurn.popProgram a v with ⟨-, h⟩ | ⟨-, -, h⟩ | ⟨hi, -⟩ | ⟨hi, -⟩ | ⟨hi, -⟩ |
      ⟨hi, -⟩ | ⟨hi, -⟩ | ⟨-, h⟩
    case inl | inr.inl | inr.inr.inr.inr.inr.inr.inr => rw [h]; rfl
    all_goals exact absurd hi busy
  · rw [hs]

end Sys2Proof.Proofs
end

section
/-! SUPPORT. Why every step keeps the control invariant and the trail's records, and why no step stops (10_state.md,
rules R21 to R35; 60_exceptions.md, rules R103, R107, R127). -/

namespace Sys2Proof.Machine

open Sys2Proof.Safety Sys2Proof.Statements

/-! ### The control invariant, event by event -/

/-- The two states differ at most in registers that the control invariant does not speak of. -/
def SameControl (s t : State) : Prop :=
  t = { s with
    x := t.x, y := t.y, kreg := t.kreg, trail := t.trail, bwe := t.bwe, finalL := t.finalL, rdata := t.rdata,
    unspecDrawn := t.unspecDrawn, program := t.program, schedule := t.schedule }

theorem SameControl.inv {s t : State} (h : SameControl s t) (hinv : Inv s) : Inv t := by
  rw [h]
  exact {
    pendingAccepted := fun w hw =>
      let hp := hinv.pendingAccepted w hw
      ⟨hp.inCmd, hp.legal, hp.noError, hp.notDone, hp.schedulePending⟩
    errHasCode := hinv.errHasCode
    notDoneAndErr := hinv.notDoneAndErr
    scheduleValid := hinv.scheduleValid
    countInRange := hinv.countInRange }

theorem SameEngine.sameControl {s t : State} (h : SameEngine s t) : SameControl s t := by
  unfold SameControl
  rw [h]

/-- Whatever was pending, a reset leaves nothing for the invariant to ask for (rule R115). -/
theorem inv_assertReset (s : State) : Inv s.assertReset where
  pendingAccepted := by rintro w ⟨⟩
  errHasCode := by simp
  notDoneAndErr := by simp
  scheduleValid := by simp
  countInRange := by simp

/-- The command in flight left ERR = 0, so its completion may set DONE (rules R25, R35). -/
theorem inv_complete {s u : State} (hinv : Inv s) (hbusy : s.busy = true) (herr : u.err = s.err)
    (hecode : u.ecode = s.ecode) (hsk : u.ksv = true → u.skWritten = true ∧ u.sk = scheduleOf u.key)
    (hcount : u.trailCount.toNat ≤ 32) : Inv u.complete := by
  obtain ⟨w, hw⟩ := s.busy_eq_true.mp hbusy
  obtain ⟨hnone, -⟩ := (hinv.pendingAccepted w hw).noError
  have herr' : u.err = false := herr.trans hnone
  exact {
    pendingAccepted := by rintro w ⟨⟩
    errHasCode := by rw [State.complete_err, State.complete_ecode, herr, hecode]; exact hinv.errHasCode
    notDoneAndErr := by simp [herr']
    scheduleValid := hsk
    countInRange := hcount }

/-- Of TRAIL's records there are at most 32 (rules R10, R32). -/
theorem recordCount_le_trailRecords (finalL : Bool) {n : Nat} (h : n ≤ 8) : recordCount finalL n ≤ 32 :=
  (recordCount_le finalL n).trans (by omega)

/-- The engine's turn on the accepted command keeps the invariant: KSCHED makes SK the schedule of KEY, TRAIL a count in
range, and the other commands change X alone. -/
theorem inv_of_engineRuns {s t : State} {i : Instr} (hinv : Inv s) (he : engineRuns s i)
    (h : exec i s.takeTurn = .next t) : Inv t := by
  have ⟨_, w, hp, hd⟩ := he
  have hbusy : s.busy = true := s.busy_eq_true.mpr ⟨w, hp⟩
  obtain ⟨j, hj, hwf, hkey⟩ := (hinv.pendingAccepted w hp).legal
  obtain rfl : i = j := Option.some.inj (hd.symm.trans hj)
  obtain ⟨u, hexec, hwrites⟩ := exec_completes (s := s.takeTurn) (isCommand_of_engineRuns he) hwf hkey
  rcases writesWithin_cases hwrites with ⟨rfl, -⟩ | ⟨⟨n, rfl⟩, -⟩ | ⟨-, hu⟩
  · obtain rfl := next_unique h (exec_ksched _)
    exact inv_complete hinv hbusy rfl rfl (fun _ => ⟨rfl, rfl⟩) hinv.countInRange
  · obtain ⟨h1, h8⟩ := of_decide_eq_true hwf
    obtain rfl := next_unique h (exec_trail _ h1 h8 (hkey rfl))
    refine inv_complete hinv hbusy rfl rfl hinv.scheduleValid ?_
    exact (toNat_ofNat_recordCount _ h8).trans_le (recordCount_le_trailRecords _ h8)
  · obtain rfl := next_unique h hexec
    rw [hu]
    exact inv_complete hinv hbusy rfl rfl hinv.scheduleValid hinv.countInRange

/-- A command that uses the key is not KSCHED, so its acceptance leaves KSV (rules R64, R98). -/
theorem opField_ne_of_usesKey {v : Word} {i : Instr} {ksv : Bool} (hd : decode (.command v) = some i)
    (hkey : i.usesKey = true) (hc : check v ksv = .none) : opField v ≠ 0x1 := by
  intro hop
  obtain rfl := eq_of_check_ksched hop hc
  have hk : decode (.command 0x1000) = some .ksched := by decide
  obtain rfl := Option.some.inj (hd.symm.trans hk)
  cases hkey

/-- A submitted word: accepted, it meets what the invariant asks of a pending word; rejected, none is pending (rules
R98, R100). -/
theorem inv_writeCmd {s : State} (hinv : Inv s) (v : Word) : Inv (s.writeCmd v) := by
  rcases writeCmd_cases s v with ⟨hc, h⟩ | ⟨hc, h⟩ <;> rw [h]
  · obtain ⟨i, hd, hwf, hkey⟩ := (Proofs.checkAgreesWithDecoder v s.ksv).1.mp hc
    have hksv : ((s.storeCmd v).accept v).ksv = true → s.ksv = true := by
      simp only [State.accept_ksv, State.storeCmd_ksv]
      split <;> simp
    refine ⟨?_, by simp, by simp, fun h => hinv.scheduleValid (hksv h), hinv.countInRange⟩
    rintro w ⟨⟩
    refine ⟨rfl, ⟨i, hd, hwf, fun hk => ?_⟩, ⟨rfl, rfl⟩, rfl, fun hk => ?_⟩
    · rw [State.accept_ksv, if_neg (opField_ne_of_usesKey hd hk hc)]
      exact hkey hk
    · obtain rfl : v = 0x1000 := Fetched.command.inj (Proofs.encodeOfDecodeIsTheWord _ _ hk).symm
      rw [State.accept_ksv, if_pos (by decide)]
  · refine ⟨?_, by simp [hc], by simp, hinv.scheduleValid, hinv.countInRange⟩
    rintro w ⟨⟩

/-- An idle KEY write clears KSV, and so needs no schedule (rule R27). -/
theorem inv_writeKey {s : State} (hinv : Inv s) (hb : s.busy = false) (i : Fin 8) (v : Word) :
    Inv (s.writeKey i v) := by
  have hp : s.pending = none := s.busy_eq_false.mp hb
  refine ⟨fun w hw => ?_, hinv.errHasCode, hinv.notDoneAndErr, fun h => ?_, hinv.countInRange⟩
  · cases hp.symm.trans hw
  · cases h

/-- No host write breaks the invariant: those beside KEY and CMD write nothing it speaks of. -/
theorem inv_regWrite {s : State} (hinv : Inv s) (a : Addr) (v : Word) : Inv (s.regWrite a v) := by
  rcases regWrite_cases s a v with ⟨-, h⟩ | ⟨-, -, h⟩ | ⟨hb, i, -, h⟩ | ⟨-, i, -, h⟩ | ⟨-, i, -, h⟩ | ⟨-, -, h⟩ |
    ⟨-, -, h⟩ | ⟨-, h⟩ <;> rw [h]
  case inr.inr.inl => exact inv_writeKey hinv hb i v
  case inr.inr.inr.inr.inr.inr.inl => exact inv_writeCmd hinv v
  all_goals exact SameControl.inv (s := s) rfl hinv

/-! ### The trail's records -/

section
variable (s : State) {m : Nat}

theorem recordAt_step (hm : m < 32) : (recordAt s m).step.toNat = m / 4 + 1 :=
  Nat.mod_eq_of_lt (by omega)

theorem recordAt_of_round (hm : m < 32) (h : m % 4 < 3) :
    (recordAt s m).kind = 1 ∧ (recordAt s m).round.toNat = 3 * (m / 4) + m % 4 + 1 := by
  simp only [recordAt, if_neg h.ne, TrailRecord.make_kind, TrailRecord.make_round, BitVec.toNat_ofNat]
  exact ⟨rfl, by omega⟩

theorem recordAt_of_layer (h : m % 4 = 3) : (recordAt s m).kind = 2 ∧ (recordAt s m).round = 0 := by
  simp only [recordAt, if_pos h, TrailRecord.make_kind, TrailRecord.make_round]
  exact ⟨rfl, rfl⟩

/-- A record TRAIL makes is one of rule R21: after a round of its step, or after its step's L. -/
theorem recordWellFormed_recordAt (hm : m < 32) : RecordWellFormed (recordAt s m) := by
  have hstep := recordAt_step s hm
  refine ⟨rfl, by omega, by omega, ?_⟩
  by_cases hlayer : m % 4 = 3
  · exact .inr (recordAt_of_layer s hlayer)
  · have hround : m % 4 < 3 := by omega
    obtain ⟨hkind, hr⟩ := recordAt_of_round s hm hround
    refine .inl ⟨hkind, by omega, by omega, ?_⟩
    rw [hr, hstep, stepOf]
    omega

end

/-- A TRAIL makes its buffer anew, or is rejected and leaves it (rules R95, R100). -/
theorem trailInv_of_exec_trail {s t : State} {n : Nat} (hinv : TrailInv s) (h : exec (.trail n) s = .next t) :
    TrailInv t := by
  rcases exec_command_writes rfl h with ⟨hwf, hkey, -⟩ | ⟨-, rfl⟩ | ⟨-, -, -, rfl⟩
  · obtain ⟨h1, h8⟩ := of_decide_eq_true hwf
    obtain rfl := next_unique h (exec_trail s h1 h8 (hkey rfl))
    have hcount := toNat_ofNat_recordCount s.finalL h8
    refine ⟨hcount.trans_le (recordCount_le_trailRecords _ h8), fun m hm => ?_⟩
    rw [State.complete_trail, trailAfter_get_of_lt s (hm.trans_eq hcount)]
    exact recordWellFormed_recordAt s m.isLt
  · exact hinv
  · exact hinv

/-! ### Progress -/

/-- Every instruction has a next state from every state: the engine has no fault and no refusal (rules R103, R107). -/
theorem exec_next (i : Instr) (s : State) : ∃ t, exec i s = .next t := by
  cases hi : i.isCommand with
  | true =>
    obtain ⟨t, h, -⟩ := exec_command_next s hi
    exact ⟨t, h⟩
  | false =>
    cases i with
    | regwr a v => exact ⟨_, exec_regwr a v s⟩
    | regrd a => exact ⟨_, exec_regrd a s⟩
    | _ => cases hi

/-- A step can only stop on a pending word that is no command, and an accepted word is one. -/
theorem step_next_of_inv {s : State} (hinv : Inv s) : ∃ t, step s = .next t := by
  rcases step_cases s with ⟨-, h⟩ | ⟨-, -, h⟩ | ⟨-, -, h⟩ | ⟨w, i, -, -, -, h⟩ | ⟨w, -, hp, hd, -⟩ |
    ⟨t, rest, -, -, h⟩ | ⟨a, mask, value, rest, -, -, h⟩
  case inr.inr.inr.inr.inl =>
    obtain ⟨i, hi, -⟩ := (hinv.pendingAccepted w hp).legal
    cases hd.symm.trans hi
  case inr.inr.inr.inl | inr.inr.inr.inr.inr.inl =>
    rw [h]
    exact exec_next _ _
  all_goals exact ⟨_, h⟩

/-! ### Completion -/

theorem settlePoll_schedule (s : State) (poll : Option (Word × Word)) : (s.settlePoll poll).schedule = s.schedule := by
  unfold State.settlePoll
  split
  · split <;> rfl
  · rfl

@[simp] theorem returnValue_schedule (s : State) (r : ReadValue) : (s.returnValue r).schedule = s.schedule := by
  cases r <;> rfl

@[simp] theorem regWrite_schedule (s : State) (a : Addr) (v : Word) : (s.regWrite a v).schedule = s.schedule := by
  rcases regWrite_cases s a v with ⟨-, h⟩ | ⟨-, -, h⟩ | ⟨-, i, -, h⟩ | ⟨-, i, -, h⟩ | ⟨-, i, -, h⟩ | ⟨-, -, h⟩ |
    ⟨-, -, h⟩ | ⟨-, h⟩ <;> rw [h]
  case inr.inr.inr.inr.inr.inr.inl => rcases writeCmd_cases s v with ⟨-, hc⟩ | ⟨-, hc⟩ <;> rw [hc] <;> rfl
  all_goals rfl

/-- A step uses up one turn and no more, whoever moves. -/
theorem step_schedule {s t : State} (h : step s = .next t) : t.schedule = s.schedule.tail := by
  rcases step_cases s with ⟨-, hs⟩ | ⟨-, -, hs⟩ | ⟨-, -, hs⟩ | ⟨w, i, -, -, hd, hs⟩ | ⟨w, -, -, -, hs⟩ |
    ⟨op, rest, -, -, hs⟩ | ⟨a, mask, value, rest, -, -, hs⟩
  case inr.inr.inr.inl =>
    obtain ⟨-, -, hschedule⟩ := exec_command_frame (isCommand_of_decode hd) (hs.symm.trans h)
    exact hschedule
  case inr.inr.inr.inr.inl => cases hs.symm.trans h
  case inr.inr.inr.inr.inr.inl =>
    cases op with
    | write a v =>
      obtain rfl := next_unique h hs
      exact regWrite_schedule _ a v
    | read a =>
      obtain rfl := next_unique h hs
      exact returnValue_schedule _ _
  all_goals obtain rfl := next_unique h hs
  case inr.inr.inr.inr.inr.inr =>
    exact (settlePoll_schedule _ _).trans (returnValue_schedule _ _)
  all_goals rfl

/-- On the engine's turn the accepted command completes (rule R35). -/
theorem step_completes_pending {s : State} (hinv : Inv s) (hb : s.busy = true) (hm : s.mover = .engine) :
    ∃ t, step s = .next t ∧ t.busy = false ∧ t.done = true := by
  obtain ⟨w, hp⟩ := s.busy_eq_true.mp hb
  obtain ⟨i, hd, -⟩ := (hinv.pendingAccepted w hp).legal
  obtain ⟨u, -, hu⟩ := step_completes hinv ⟨hm, w, hp, hd⟩
  exact ⟨_, hu, rfl, rfl⟩

end Sys2Proof.Machine
end

section
/-! The obligations of the invariants, of progress and of completion (10_state.md, rules R21 to R35; 60_exceptions.md;
70_reset_and_hazards.md, rule R127). -/

namespace Sys2Proof.Proofs

open Sys2Proof.Machine Sys2Proof.Safety Sys2Proof.Statements

/-- Settles O54: after reset nothing is pending, ERR, DONE, KSV and TRAIL_COUNT are 0. -/
theorem controlInvariantAtReset : Obligations.ControlInvariantAtReset := inv_assertReset State.reset

/-- Settles O55, by the kinds of step: a reset, the engine's turn on the accepted command, a host write, and a step that
leaves the engine as it is. -/
theorem stepKeepsControlInvariant : Obligations.StepKeepsControlInvariant := by
  intro s t hinv hstep
  rcases step_next_cases hstep with ⟨-, rfl⟩ | ⟨i, he, hx⟩ | ⟨a, v, -, rfl⟩ | hs
  · exact inv_assertReset _
  · exact inv_of_engineRuns hinv he hx
  · have hturn : Inv s.takeTurn.popProgram := SameControl.inv (s := s) rfl hinv
    exact inv_regWrite hturn a v
  · exact hs.sameControl.inv hinv

/-- Settles O56: only a TRAIL and a reset change the buffer; the one makes records of the right form, the other leaves
no valid record. -/
theorem stepKeepsTrailRecords : Obligations.StepKeepsTrailRecords := by
  have reset (s : State) : TrailInv s.assertReset := ⟨by simp, fun n hn => absurd hn (Nat.not_lt_zero _)⟩
  refine ⟨reset State.reset, fun s t hinv hstep => ?_⟩
  by_cases hm : s.mover = .reset
  · rw [eq_of_reset hstep hm]
    exact reset _
  · obtain ⟨-, -, -, -, -, -, hwriter⟩ := registersChangeOnlyByTheirWriters s t hstep hm
    by_cases hsame : t.trail ≠ s.trail ∨ t.trailCount ≠ s.trailCount
    · obtain ⟨n, he⟩ := hwriter hsame
      exact trailInv_of_exec_trail (s := s.takeTurn) hinv ((step_of_engineRuns he).symm.trans hstep)
    · obtain ⟨htrail, hcount⟩ : t.trail = s.trail ∧ t.trailCount = s.trailCount := by simpa using hsame
      rw [TrailInv, htrail, hcount]
      exact hinv

/-- Settles O57: the invariant holds along the run, and under it every step answers. -/
theorem noRunStops : Obligations.NoRunStops := by
  intro s hinv t hreach
  have ht : Inv t := by
    induction hreach with
    | refl => exact hinv
    | step _ hstep ih => exact stepKeepsControlInvariant _ _ ih hstep
  exact step_next_of_inv ht

/-- Settles O58, by induction on the moves still ordered: the host's leave the command in flight, and the engine's,
which comes at the latest when no move is ordered any more, completes it. -/
theorem acceptedCommandCompletes : Obligations.AcceptedCommandCompletes := by
  intro s hinv hb hreset
  have now {s : State} (hinv : Inv s) (hb : s.busy = true) (hm : s.mover = .engine) :
      ∃ k t, 1 ≤ k ∧ k ≤ s.schedule.length + 1 ∧ StepsTo k s t ∧ t.busy = false ∧ t.done = true := by
    obtain ⟨t, hstep, hdone⟩ := step_completes_pending hinv hb hm
    exact ⟨1, t, le_rfl, Nat.le_add_left _ _, ⟨t, hstep, rfl⟩, hdone⟩
  induction hs : s.schedule generalizing s with
  | nil => exact hs ▸ now hinv hb (by simp [State.mover, hs, hb])
  | cons agent later ih =>
    cases agent with
    | reset => simp [hs] at hreset
    | engine => exact hs ▸ now hinv hb (by simp [State.mover, hs])
    | host =>
      have hm : s.mover = .host := by simp [State.mover, hs]
      obtain ⟨t, hstep⟩ := step_next_of_inv hinv
      have hlater : t.schedule = later := by rw [step_schedule hstep, hs, List.tail_cons]
      have hframe := hostCannotDisturbACommandInFlight s t hb hm hstep
      have hbt : t.busy = true := by
        rw [hframe]
        exact hb
      have hno : .reset ∉ t.schedule := fun h => hreset (by rw [hs]; exact List.mem_cons_of_mem _ (hlater ▸ h))
      obtain ⟨k, u, hk1, hk, hsteps, hu⟩ := ih t (stepKeepsControlInvariant s t hinv hstep) hbt hno hlater
      refine ⟨k + 1, u, Nat.le_add_left _ _, ?_, ⟨t, hstep, hsteps⟩, hu⟩
      rw [List.length_cons]
      exact Nat.succ_le_succ hk

end Sys2Proof.Proofs
end

section
/-! SUPPORT. What a host read returns (20_memory.md, rules R38 to R44; 40_host_bus.md, rule R63): the pending command's
write set element by element, and the reads of each register. -/

namespace Sys2Proof.Machine

open Sys2Proof.Safety Sys2Proof.Statements

/-! ### Addresses of the windows -/

@[simp] theorem toNat_skAddr (g : Fin 17) (i : Fin 6) : (skAddr g i).toNat = 0x100 + 6 * g.val + i.val := by
  simp [skAddr]; omega
@[simp] theorem toNat_trailAddr (n : Fin 32) (w : Fin 8) : (trailAddr n w).toNat = 0x200 + 8 * n.val + w.val := by
  simp [trailAddr]; omega

/-! ### What the pending command writes -/

theorem mem_pendingWrites {s : State} {e : Element} :
    e ∈ s.pendingWrites ↔ ∃ c, commandPending s c ∧ e ∈ writeSet c := by
  constructor
  · intro h
    cases hp : s.pending with
    | none => simp [hp] at h
    | some w =>
      cases hd : decodeCommand w with
      | none => simp [State.pendingWrites, hp, hd] at h
      | some c =>
        rw [pendingWrites_some hp hd] at h
        exact ⟨c, ⟨w, hp, hd⟩, h⟩
  · rintro ⟨c, ⟨w, hp, hd⟩, h⟩
    rwa [pendingWrites_some hp hd]

theorem isCommand_of_commandPending {s : State} {c : Instr} (h : commandPending s c) : c.isCommand = true :=
  let ⟨_, _, hd⟩ := h
  isCommand_of_decode hd

section
variable (s : State)

theorem contains_x : s.pendingWrites.contains .x = true ↔ ∃ c, commandPending s c ∧ c ≠ .ksched := by
  rw [List.contains_iff_mem, mem_pendingWrites]
  refine exists_congr fun c => and_congr_right fun hc => ?_
  have := isCommand_of_commandPending hc
  cases c <;> simp_all [writeSet, Instr.isCommand]

theorem contains_sk : s.pendingWrites.contains .sk = true ↔ commandPending s .ksched := by
  rw [List.contains_iff_mem, mem_pendingWrites]
  refine ⟨?_, fun h => ⟨_, h, by decide⟩⟩
  rintro ⟨c, hc, h⟩
  cases c <;> simp_all [writeSet]

/-- Y, TRAIL and TRAIL_COUNT are TRAIL's alone (rule R64). -/
theorem contains_of_trail {e : Element} (he : e = .y ∨ e = .trail ∨ e = .trailCount) :
    s.pendingWrites.contains e = true ↔ ∃ n, commandPending s (.trail n) := by
  rw [List.contains_iff_mem, mem_pendingWrites]
  constructor
  · rintro ⟨c, hc, h⟩
    cases c
    case trail n => exact ⟨n, hc⟩
    all_goals rcases he with rfl | rfl | rfl <;> simp [writeSet] at h
  · rintro ⟨n, hn⟩
    refine ⟨_, hn, ?_⟩
    rcases he with rfl | rfl | rfl <;> simp [writeSet]

end

/-! ### What a read returns -/

section
variable {s : State} {a : Addr}

theorem readsExactly_of_regRead {v : Word} (h : s.regRead a = .exact v) : readsExactly s a v := by
  rw [readsExactly, exec_regrd, h, State.returnValue]

/-- A read that is UNSPEC under a condition. -/
theorem reads_of_unspecIf {c : Bool} {v : Word} {P : Prop} (h : s.regRead a = unspecIf c v) (hc : c = true ↔ P) :
    (P → readsUnspec s a) ∧ (¬ P → readsExactly s a v) := by
  refine ⟨fun hp => ?_, fun hp => readsExactly_of_regRead ?_⟩
  · rw [readsUnspec, exec_regrd, h, unspecIf, if_pos (hc.mpr hp), State.returnValue]
  · rw [h, unspecIf, if_neg (mt hc.mp hp)]

variable (s) in
theorem reads_key {i : Fin 8} (h : registerAt a = .key i) : readsExactly s a (s.key.get i) :=
  readsExactly_of_regRead (by rw [State.regRead, h])

variable (s) in
theorem reads_x {i : Fin 4} (h : registerAt a = .x i) :
    ((∃ c, commandPending s c ∧ c ≠ .ksched) → readsUnspec s a) ∧
    ((¬ ∃ c, commandPending s c ∧ c ≠ .ksched) → readsExactly s a (s.x.get i)) :=
  reads_of_unspecIf (by rw [State.regRead, h]) (contains_x s)

variable (s) in
theorem reads_y {i : Fin 4} (h : registerAt a = .y i) :
    ((∃ n, commandPending s (.trail n)) → readsUnspec s a) ∧
    ((¬ ∃ n, commandPending s (.trail n)) → readsExactly s a (s.y.get i)) :=
  reads_of_unspecIf (by rw [State.regRead, h]) (contains_of_trail s (.inl rfl))

variable (s) in
theorem reads_sk {g : Fin 17} {i : Fin 6} (h : registerAt a = .sk g i) :
    (commandPending s .ksched ∨ s.skWritten = false → readsUnspec s a) ∧
    (¬ (commandPending s .ksched ∨ s.skWritten = false) → readsExactly s a (s.sk[g].get i)) :=
  reads_of_unspecIf (by rw [State.regRead, h])
    (by rw [Bool.or_eq_true, Bool.not_eq_true', contains_sk])

variable (s) in
theorem reads_trail {n : Fin 32} {w : Fin 8} (h : registerAt a = .trail n w) :
    ((∃ c, commandPending s (.trail c)) ∨ s.trailCount.toNat ≤ n.val → readsUnspec s a) ∧
    (¬ ((∃ c, commandPending s (.trail c)) ∨ s.trailCount.toNat ≤ n.val) → readsExactly s a (s.trail[n].get w)) :=
  reads_of_unspecIf (by rw [State.regRead, h])
    (by rw [Bool.or_eq_true, decide_eq_true_iff, contains_of_trail s (.inr (.inl rfl))])

end

theorem ctrlWord_eq (s : State) : s.ctrlWord = if s.finalL then 0x0001 else 0x0000 := by
  unfold State.ctrlWord
  cases s.finalL <;> rfl

end Sys2Proof.Machine
end

section
/-! The obligations of the host's reads (40_host_bus.md, rule R63). -/

namespace Sys2Proof.Proofs

open Sys2Proof.Machine Sys2Proof.Safety Sys2Proof.Statements

/-- Settles O14, register by register: the address map, and for a register a command may write the pending command's
write set. -/
theorem registerReadByAddress : Obligations.RegisterReadByAddress := by
  refine fun s a => ⟨fun i h => reads_key s (registerAt_key i h), fun i h => reads_x s (registerAt_x i h),
    fun i h => reads_y s (registerAt_y i h), ?cmd, ?status, ?ctrl, ?count, ?config,
    fun g i h => reads_sk s (registerAt_sk g i h), fun n w h => reads_trail s (registerAt_trail n w h),
    fun h => readsExactly_of_regRead (regRead_reserved s h)⟩
  case cmd => rintro rfl; exact readsExactly_of_regRead (by simp [State.regRead])
  case status => rintro rfl; exact readsExactly_of_regRead (by simp [State.regRead])
  case ctrl => rintro rfl; exact readsExactly_of_regRead (by simp [State.regRead, ctrlWord_eq])
  case count =>
    rintro rfl
    exact reads_of_unspecIf (by simp [State.regRead]) (contains_of_trail s (.inr (.inr rfl)))
  case config => rintro rfl; exact readsExactly_of_regRead (regRead_config s)

end Sys2Proof.Proofs
end

section
/-! SUPPORT. Writing a data register while BUSY = 0, and reading it back (20_memory.md, rule R44; 40_host_bus.md, rule
R62). -/

namespace Sys2Proof.Machine

open Sys2Proof.Safety Sys2Proof.Statements

theorem exec_regwr_eq {a : Addr} {v : Word} {s t : State} (h : s.regWrite a v = t) : exec (.regwr a v) s = .next t :=
  congrArg _ h

theorem eq_keyAddr {a : Addr} {i : Fin 8} (h : a.toNat = i.val) : a = keyAddr i :=
  BitVec.eq_of_toNat_eq (h.trans (toNat_keyAddr i).symm)

theorem eq_xAddr {a : Addr} {i : Fin 4} (h : a.toNat = 0x008 + i.val) : a = xAddr i :=
  BitVec.eq_of_toNat_eq (h.trans (toNat_xAddr i).symm)

theorem eq_yAddr {a : Addr} {i : Fin 4} (h : a.toNat = 0x00C + i.val) : a = yAddr i :=
  BitVec.eq_of_toNat_eq (h.trans (toNat_yAddr i).symm)

/-- While BUSY = 0 no command is pending (rule R35). -/
theorem not_commandPending {s : State} (hb : s.busy = false) (c : Instr) : ¬ commandPending s c := by
  rintro ⟨w, hp, -⟩
  cases (s.busy_eq_false.mp hb).symm.trans hp

section
variable {s : State} (hb : s.busy = false)
include hb

theorem reads_x_idle (i : Fin 4) : readsExactly s (xAddr i) (s.x.get i) :=
  (reads_x s (registerAt_xAddr i)).2 fun ⟨c, hc, _⟩ => not_commandPending hb c hc

theorem reads_y_idle (i : Fin 4) : readsExactly s (yAddr i) (s.y.get i) :=
  (reads_y s (registerAt_yAddr i)).2 fun ⟨_, hc⟩ => not_commandPending hb _ hc

end

/-- CTRL keeps bit 0 of what is written and reads it back (rule R31). -/
theorem ctrlWord_writeCtrl (s : State) (v : Word) : (s.writeCtrl v).ctrlWord = v &&& 0x0001 := by
  refine BitVec.eq_of_getLsbD_eq fun i (hi : i < 16) => ?_
  simp only [State.ctrlWord, State.writeCtrl_finalL, BitVec.getLsbD_append, BitVec.getLsbD_and]
  interval_cases i <;> simp

/-! ### Each data register after a write -/

section
variable {s : State} (v : Word) (hb : s.busy = false)
include hb

theorem writeKey_again (i : Fin 8) :
    (s.writeKey i v).regWrite (keyAddr i) v = s.writeKey i v ∧ readsExactly (s.writeKey i v) (keyAddr i) v := by
  obtain ⟨hkey, -⟩ := regWrite_idle (s := s.writeKey i v) v hb
  have hread := reads_key (s.writeKey i v) (registerAt_keyAddr i)
  rw [State.writeKey_key, KeyWords.get_set, if_pos rfl] at hread
  exact ⟨by rw [hkey, State.writeKey, State.writeKey_key, KeyWords.set_set]; rfl, hread⟩

theorem setX_again (i : Fin 4) :
    (s.setX (s.x.set i v)).regWrite (xAddr i) v = s.setX (s.x.set i v) ∧
      readsExactly (s.setX (s.x.set i v)) (xAddr i) v := by
  obtain ⟨-, hx, -⟩ := regWrite_idle (s := s.setX (s.x.set i v)) v hb
  have hread := reads_x_idle (s := s.setX (s.x.set i v)) hb i
  rw [State.setX_x, Block.get_set, if_pos rfl] at hread
  exact ⟨by rw [hx, State.setX_x, Block.set_set]; rfl, hread⟩

theorem setY_again (i : Fin 4) :
    (s.setY (s.y.set i v)).regWrite (yAddr i) v = s.setY (s.y.set i v) ∧
      readsExactly (s.setY (s.y.set i v)) (yAddr i) v := by
  obtain ⟨-, -, hy, -⟩ := regWrite_idle (s := s.setY (s.y.set i v)) v hb
  have hread := reads_y_idle (s := s.setY (s.y.set i v)) hb i
  rw [State.setY_y, Block.get_set, if_pos rfl] at hread
  exact ⟨by rw [hy, State.setY_y, Block.set_set]; rfl, hread⟩

theorem writeCtrl_again :
    (s.writeCtrl v).regWrite 0x012 v = s.writeCtrl v ∧ readsExactly (s.writeCtrl v) 0x012 (v &&& 0x0001) := by
  obtain ⟨-, -, -, hctrl, -⟩ := regWrite_idle (s := s.writeCtrl v) v hb
  refine ⟨hctrl, readsExactly_of_regRead ?_⟩
  rw [← ctrlWord_writeCtrl s v]
  simp [State.regRead]

end

/-- A write to KEY, X, Y or CTRL (rules R44, R62, R101): dropped and BWE set, or made, and then the register reads the
datum; the same write again changes nothing. -/
theorem regWrite_again {a : Addr} (s : State) (v : Word) (ha : a.toNat ≤ 0x00F ∨ a = 0x012) :
    (s.regWrite a v).regWrite a v = s.regWrite a v ∧
    (s.busy = false → readsExactly (s.regWrite a v) a (if a = 0x012 then v &&& 0x0001 else v)) := by
  have ne_ctrl {a : Addr} (h : a.toNat < 0x012) : a ≠ 0x012 := fun he => absurd (he ▸ h) (by decide)
  rcases regWrite_cases s a v with ⟨rfl, -⟩ | ⟨hg, hb, h⟩ | ⟨hb, i, rfl, h⟩ | ⟨hb, i, rfl, h⟩ | ⟨hb, i, rfl, h⟩ |
    ⟨hb, rfl, h⟩ | ⟨-, rfl, -⟩ | ⟨hlow, -⟩
  case inl => exact absurd ha (by decide)
  case inr.inr.inr.inr.inr.inr.inl => exact absurd ha (by decide)
  case inr.inr.inr.inr.inr.inr.inr =>
    rcases ha with ha | rfl
    · omega
    · exact absurd hlow (by decide)
  all_goals rw [h]
  case inr.inl =>
    rw [regWrite_busy (s := s.busyWrite) a v hb hg]
    exact ⟨rfl, fun hi => Bool.noConfusion (hb.symm.trans hi)⟩
  case inr.inr.inl =>
    rw [if_neg (ne_ctrl (by simp; omega))]
    exact (writeKey_again v hb i).imp_right fun hread _ => hread
  case inr.inr.inr.inl =>
    rw [if_neg (ne_ctrl (by simp; omega))]
    exact (setX_again v hb i).imp_right fun hread _ => hread
  case inr.inr.inr.inr.inl =>
    rw [if_neg (ne_ctrl (by simp; omega))]
    exact (setY_again v hb i).imp_right fun hread _ => hread
  case inr.inr.inr.inr.inr.inl => exact (writeCtrl_again v hb).imp_right fun hread _ => hread

/-! ### STATUS -/

theorem statusWord_ksv (s : State) : s.statusWord.getLsbD 3 = s.ksv := by
  simp only [State.statusWord, BitVec.getLsbD_append]
  simp

theorem statusWord_bwe (s : State) : s.statusWord.getLsbD 4 = s.bwe := by
  simp only [State.statusWord, BitVec.getLsbD_append]
  simp

/-- The reserved bits of STATUS read 0 (rule R23). -/
theorem statusWord_reserved (s : State) : s.statusWord.extractLsb 7 5 = 0 ∧ s.statusWord.extractLsb 15 12 = 0 := by
  refine ⟨BitVec.eq_of_getLsbD_eq fun i (hi : i < 3) => ?_, BitVec.eq_of_getLsbD_eq fun i (hi : i < 4) => ?_⟩ <;>
    simp only [State.statusWord, BitVec.getLsbD_append, BitVec.getLsbD_extractLsb] <;>
    interval_cases i <;> simp

/-- What a read changes, no register shows (rule R44). -/
theorem regRead_returnValue (s : State) (r : ReadValue) (a : Addr) : (s.returnValue r).regRead a = s.regRead a := by
  cases r <;> rfl

end Sys2Proof.Machine
end

section
/-! The obligations of the host's accesses to the data registers and to STATUS (10_state.md, rule R23; 20_memory.md, rule
R44; 40_host_bus.md, rule R62). -/

namespace Sys2Proof.Proofs

open Sys2Proof.Machine Sys2Proof.Safety Sys2Proof.Statements

/-- Settles O7: while BUSY = 0 each address has its own update of the state. -/
theorem dataRegisterWrites : Obligations.DataRegisterWrites := by
  intro s a v hb
  obtain ⟨hkey, hx, hy, hctrl, -⟩ := regWrite_idle v hb
  refine ⟨fun i ha => ?_, fun i ha => ?_, fun i ha => ?_, fun ha => ?_⟩
  · obtain rfl := eq_keyAddr ha
    exact ⟨_, exec_regwr_eq (hkey i), rfl, fun j => s.key.get_set i j v⟩
  · obtain rfl := eq_xAddr ha
    exact ⟨_, exec_regwr_eq (hx i), rfl, fun j => s.x.get_set i j v⟩
  · obtain rfl := eq_yAddr ha
    exact ⟨_, exec_regwr_eq (hy i), rfl, fun j => s.y.get_set i j v⟩
  · obtain rfl := ha
    exact exec_regwr_eq hctrl

/-- Settles O11: the write made twice is the write made once, and the register reads what was written. -/
theorem dataWritesAreIdempotent : Obligations.DataWritesAreIdempotent := by
  intro s t a v ha hexec
  obtain rfl := next_unique hexec (exec_regwr a v s)
  obtain ⟨htwice, hread⟩ := regWrite_again s v ha
  exact ⟨exec_regwr_eq htwice, hread⟩

/-- Settles O15, field by field of the word a STATUS read returns. -/
theorem statusWordFields : Obligations.StatusWordFields := by
  refine ⟨fun s => ?_, fun s v v' hv => ?_, by decide⟩
  · obtain ⟨hlow, hhigh⟩ := statusWord_reserved s
    exact ⟨s.statusWord, (statusWriteOnlyClearsBwe.1 s 0).2, statusWord_busy s, statusWord_done s, statusWord_err s,
      statusWord_ksv s, statusWord_bwe s, hlow, statusWord_ecode s, hhigh⟩
  · rw [(statusWriteOnlyClearsBwe.1 s v).1, (statusWriteOnlyClearsBwe.1 s v').1, hv]

/-- Settles O16: a read changes what the host holds and nothing that a read returns. -/
theorem readsHaveNoSideEffect : Obligations.ReadsHaveNoSideEffect :=
  fun s a => ⟨_, exec_regrd a s, returnValue_frame s _, regRead_returnValue s _⟩

end Sys2Proof.Proofs
end

section
/-! SUPPORT. Single moves: the host at a transaction or a poll, an idle agent, and what is read right after a reset
(20_memory.md, rule R46; 30_encoding.md, rule R60; 70_reset_and_hazards.md, rules R115, R116). -/

namespace Sys2Proof.Machine

open Sys2Proof.Safety Sys2Proof.Statements

/-! ### The host's turn and idle turns -/

theorem takeTurn_popProgram {s : State} {op : HostOp} {rest : List HostOp} (hp : s.program = op :: rest) :
    s.takeTurn.popProgram = { s with program := rest, schedule := s.schedule.tail } := by
  simp [State.popProgram, State.takeTurn, hp]

theorem step_of_hostReads {s : State} {a : Addr} {rest : List HostOp} (hm : s.mover = .host)
    (hp : s.program = .bus (.read a) :: rest) : step s = exec (.regrd a) s.takeTurn.popProgram := by
  simp [step, State.fetch, State.afterFetch, State.polling, State.settlePoll, hm, hp, decodeBus]

/-- On the host's turn a transaction is run and taken off the program. -/
theorem step_of_bus {s : State} {op : BusOp} {rest : List HostOp} (hm : s.mover = .host)
    (hp : s.program = .bus op :: rest) : step s = exec (decodeBus op) { s.takeTurn with program := rest } := by
  have hpop : s.takeTurn.popProgram = { s.takeTurn with program := rest } := takeTurn_popProgram hp
  rw [← hpop]
  cases op with
  | write a v => exact step_of_hostWrites ⟨hm, rest, hp⟩
  | read a => exact step_of_hostReads hm hp

theorem step_of_poll {s : State} {a : Addr} {mask value : Word} {rest : List HostOp} (hm : s.mover = .host)
    (hp : s.program = .poll a mask value :: rest) :
    step s = .next ((s.takeTurn.returnValue (s.takeTurn.regRead a)).settlePoll (some (mask, value))) := by
  simp [step, State.fetch, State.polling, State.afterFetch, hm, hp, decodeBus]

theorem settlePoll_eq {s : State} {op : HostOp} {rest : List HostOp} (mask value : Word) (hp : s.program = op :: rest) :
    s.settlePoll (some (mask, value)) = if s.rdata &&& mask = value then { s with program := rest } else s := by
  simp [State.settlePoll, State.popProgram, hp]

@[simp] theorem returnValue_program (s : State) (r : ReadValue) : (s.returnValue r).program = s.program := by
  cases r <;> rfl

/-! ### After a reset -/

theorem get_key_reset (i : Fin 8) : State.reset.key.get i = 0 := by fin_cases i <;> rfl
theorem get_x_reset (i : Fin 4) : State.reset.x.get i = 0 := by fin_cases i <;> rfl
theorem get_y_reset (i : Fin 4) : State.reset.y.get i = 0 := by fin_cases i <;> rfl

/-- No KSCHED has completed since the reset, so SK reads UNSPEC (rules R63, R116). -/
theorem reads_sk_assertReset (s : State) {a : Addr} {g : Fin 17} {i : Fin 6} (h : registerAt a = .sk g i) :
    readsUnspec s.assertReset a :=
  (reads_sk _ h).1 (.inr rfl)

/-- No record is valid after a reset, so the trail window reads UNSPEC (rules R63, R116). -/
theorem reads_trail_assertReset (s : State) {a : Addr} {n : Fin 32} {w : Fin 8} (h : registerAt a = .trail n w) :
    readsUnspec s.assertReset a :=
  (reads_trail _ h).1 (.inr (Nat.zero_le _))

theorem statusWord_assertReset (s : State) : s.assertReset.statusWord = 0x0000 :=
  show State.reset.statusWord = 0x0000 by decide

/-- KEY, X, Y, CMD, STATUS, CTRL and TRAIL_COUNT read 0 (rule R116). -/
theorem reads_zero_assertReset (s : State) {a : Addr} (ha : a.toNat ≤ 0x013) : readsExactly s.assertReset a 0x0000 := by
  have idle (c : Instr) : ¬ commandPending s.assertReset c := not_commandPending rfl c
  have spec := registerAt_spec a
  cases hr : registerAt a <;> rw [hr] at spec
  case key i => exact get_key_reset i ▸ reads_key _ hr
  case x i => exact get_x_reset i ▸ (reads_x _ hr).2 fun ⟨c, hc, _⟩ => idle c hc
  case y i => exact get_y_reset i ▸ (reads_y _ hr).2 fun ⟨_, hc⟩ => idle _ hc
  case cmd => exact readsExactly_of_regRead (by rw [State.regRead, hr]; rfl)
  case status => exact readsExactly_of_regRead (by simp only [State.regRead, hr, statusWord_assertReset])
  case ctrl => exact readsExactly_of_regRead (by simp [State.regRead, hr, ctrlWord_eq])
  case trailCount => exact readsExactly_of_regRead (by rw [State.regRead, hr]; rfl)
  case config => exact absurd (spec ▸ ha) (by decide)
  case sk g i => rw [spec, toNat_skAddr] at ha; omega
  case trail n w => rw [spec, toNat_trailAddr] at ha; omega
  case reserved => simp only at spec; omega

end Sys2Proof.Machine
end

section
/-! The obligations of single steps: the agents' turns, reset, and the race of a write with a completion (20_memory.md,
rule R46; 60_exceptions.md, rule R102; 70_reset_and_hazards.md). -/

namespace Sys2Proof.Proofs

open Sys2Proof.Machine Sys2Proof.Safety Sys2Proof.Statements

/-- Settles O41: the engine's turn runs the pending command, the host's turn the transaction. -/
theorem stepRunsTheFetchedInstruction : Obligations.StepRunsTheFetchedInstruction := by
  refine ⟨fun s w i hm hp hd => step_of_engineRuns ⟨hm, w, hp, hd⟩, fun s t i rest hm hp hd => ?_⟩
  obtain rfl := Option.some.inj hd
  exact step_of_bus hm hp

/-- Settles O42: the read leaves the program, and the value read decides whether the poll is taken off it. -/
theorem pollRepeatsItsRead : Obligations.PollRepeatsItsRead := by
  intro s a mask value rest hm hp
  have hprogram : (s.takeTurn.returnValue (s.takeTurn.regRead a)).program = .poll a mask value :: rest := by
    rw [returnValue_program]
    exact hp
  exact ⟨_, exec_regrd a _, by rw [step_of_poll hm hp, settlePoll_eq mask value hprogram]; rfl⟩

/-- Settles O43: an idle agent fetches nothing. -/
theorem idleAgentsChangeNothing : Obligations.IdleAgentsChangeNothing := by
  rintro s (⟨hm, hp⟩ | ⟨hm, hp⟩) <;>
    simp [step, State.fetch, State.turnWithoutFetch, hm, hp, State.takeTurn]

/-- Settles O44: the registers are those of the reset state, and both windows read free values. -/
theorem resetStep : Obligations.ResetStep :=
  fun s hm => ⟨s.takeTurn.assertReset, step_of_reset hm, get_key_reset, get_x_reset, get_y_reset, rfl, rfl, rfl, rfl,
    rfl, rfl, rfl, rfl, rfl, rfl, fun g i => reads_sk_assertReset _ (registerAt_skAddr g i),
    fun n w => reads_trail_assertReset _ (registerAt_trailAddr n w), rfl, rfl, rfl, rfl⟩

/-- Settles O45: each range of addresses by the registers that lie in it. -/
theorem readsRightAfterReset : Obligations.ReadsRightAfterReset := by
  refine fun s hm => ⟨_, step_of_reset hm, fun a => ⟨reads_zero_assertReset _, ?config, ?sk, ?trail, fun h =>
    readsExactly_of_regRead (regRead_reserved _ h)⟩⟩
  case config =>
    rintro rfl
    exact readsExactly_of_regRead (regRead_config _)
  case sk =>
    rintro ⟨hlow, hhigh⟩
    exact reads_sk_assertReset _ (registerAt_sk ⟨(a.toNat - 0x100) / 6, by omega⟩
      ⟨(a.toNat - 0x100) % 6, by omega⟩ (show a.toNat = 0x100 + 6 * ((a.toNat - 0x100) / 6) + (a.toNat - 0x100) % 6 by omega))
  case trail =>
    rintro ⟨hlow, hhigh⟩
    exact reads_trail_assertReset _ (registerAt_trail ⟨(a.toNat - 0x200) / 8, by omega⟩
      ⟨(a.toNat - 0x200) % 8, by omega⟩ (show a.toNat = 0x200 + 8 * ((a.toNat - 0x200) / 8) + (a.toNat - 0x200) % 8 by omega))

/-- Settles O53: the write meets the pending command and is dropped, and then the engine completes; or the engine
completes first, and the write meets BUSY = 0. -/
theorem bothOrdersOfARace : Obligations.BothOrdersOfARace := by
  intro s w i a v rest later hp hd hprogram hguarded
  have hb : s.busy = true := s.busy_eq_true.mpr ⟨w, hp⟩
  have hi : i.isCommand = true := isCommand_of_decode hd
  constructor
  · have hwrite : hostWrites { s with schedule := .host :: .engine :: later } a v := ⟨rfl, rest, hprogram⟩
    have hengine : engineRuns { s with bwe := true, program := rest, schedule := .engine :: later } i :=
      ⟨rfl, w, hp, hd⟩
    obtain ⟨t, ht, htp⟩ := exec_command_next { s with bwe := true, program := rest, schedule := later } hi
    refine ⟨t, ?_, (step_of_engineRuns hengine).trans ht, t.busy_eq_false.mpr htp⟩
    have hturn := takeTurn_popProgram (s := { s with schedule := .host :: .engine :: later }) hprogram
    rw [step_of_hostWrites hwrite, hturn]
    exact congrArg _ (regWrite_busy a v hb hguarded)
  · have hengine : engineRuns { s with schedule := .engine :: .host :: later } i := ⟨rfl, w, hp, hd⟩
    obtain ⟨t, ht, htp⟩ := exec_command_next { s with schedule := .host :: later } hi
    obtain ⟨hbwe, hprog, hsched⟩ := exec_command_frame hi ht
    have hwrite : hostWrites t a v := ⟨by simp [State.mover, hsched], rest, hprog.trans hprogram⟩
    have hbt : t.busy = false := t.busy_eq_false.mpr htp
    have hturn : t.takeTurn.popProgram = { t with program := rest, schedule := later } := by
      rw [takeTurn_popProgram (hprog.trans hprogram), hsched, List.tail_cons]
    refine ⟨t, _, (step_of_engineRuns hengine).trans ht, hbt, hbwe, hprog, hsched, step_of_hostWrites hwrite, ?_,
      by rw [exec_regwr, hturn]⟩
    rcases regWrite_bwe t.takeTurn.popProgram a v with h | ⟨h, -⟩ | ⟨rfl, -⟩
    · exact h.trans hbwe
    · cases hbt.symm.trans h
    · exact absurd hguarded (by unfold busyGuarded; decide)

/-- Settles O59: the KEY write leaves SK, the accepted KSCHED word makes SK an element being written, and its completion
fills it from the new KEY. -/
theorem changingTheKey : Obligations.ChangingTheKey := by
  intro s i v g j hb hsk
  obtain ⟨hkey, -⟩ := regWrite_idle v hb
  have hb' : (s.writeKey i v).busy = false := hb
  have haccepted : (s.writeKey i v).writeCmd 0x1000 = ((s.writeKey i v).storeCmd 0x1000).accept 0x1000 :=
    writeCmd_accepted (by rw [State.writeKey_ksv]; decide)
  refine ⟨_, _, _, exec_regwr_eq (hkey i), rfl, (reads_sk _ (registerAt_skAddr g j)).2 ?_,
    (exec_regwr_cmd _ hb').trans (congrArg _ haccepted), rfl,
    (reads_sk _ (registerAt_skAddr g j)).1 (.inl ⟨0x1000, rfl, by decide⟩), exec_ksched _, rfl,
    (reads_sk _ (registerAt_skAddr g j)).2 ?_⟩
  · rintro (h | h)
    · exact not_commandPending hb' _ h
    · cases hsk.symm.trans h
  · rintro (h | h)
    · exact not_commandPending (State.complete_busy _) _ h
    · cases h

end Sys2Proof.Proofs
end

section
/-! SUPPORT. What the commands compute: the rounds of a branch, the states between the steps, the fields of a record, and
the linear layer over exclusive or (41_primitives.md, 43_round_commands.md, 44_step_commands.md, 45_trail.md). -/

namespace Sys2Proof.Machine

open Sys2Proof.Safety Sys2Proof.Statements

/-! ### Each branch through a range of rounds -/

section
variable (sk : Vector SubkeyGroup 17) (r1 r2 : Nat) (x : Block) (b : Branch)

/-- Each branch is left alone by the rounds of the other (rule R84). -/
theorem branch_encryptRounds :
    (encryptRounds sk r1 r2 x).branch b =
      (countUp r1 r2).foldl (fun p r => roundA (xorPair p (subkeyPair sk b r))) (x.branch b) := by
  cases b <;> simp [encryptRounds, Branch.all, branch_foldl_encRound]

/-- Each branch is left alone by the rounds of the other (rule R85). -/
theorem branch_decryptRounds :
    (decryptRounds sk r1 r2 x).branch b =
      (countUp r1 r2).foldr (fun r p => xorPair (roundAInv p) (subkeyPair sk b r)) (x.branch b) := by
  rw [← List.foldl_reverse, ← countDown]
  cases b <;> simp [decryptRounds, Branch.all, branch_foldl_decRound]

end

/-! ### The states between the steps -/

section
variable (sk : Vector SubkeyGroup 17) (finalL : Bool)

/-- What ENCS s1, … has made of x before step k (rule R89). -/
def beforeStep (s1 : Nat) (x : Block) (k : Nat) : Block :=
  (List.range' s1 (k - s1)).foldl (encryptStep sk finalL) x

theorem beforeStep_self (s1 : Nat) (x : Block) : beforeStep sk finalL s1 x s1 = x := by
  rw [beforeStep, Nat.sub_self, List.range'_zero, List.foldl_nil]

theorem beforeStep_succ {s1 k : Nat} (h : s1 ≤ k) (x : Block) :
    beforeStep sk finalL s1 x (k + 1) = encryptStep sk finalL (beforeStep sk finalL s1 x k) k := by
  rw [beforeStep, Nat.succ_sub h, List.range'_concat, Nat.one_mul, Nat.add_sub_cancel' h, List.foldl_concat]
  rfl

/-- What DECS …, s2 has made of x, the whitening off, once the steps from s2 down to k are inverted (rule R90). -/
def afterInverse (s2 : Nat) (x : Block) (k : Nat) : Block :=
  (countDown s2 k).foldl (decryptStep sk finalL) x

theorem afterInverse_succ_self (s2 : Nat) (x : Block) : afterInverse sk finalL s2 x (s2 + 1) = x := by
  rw [afterInverse, countDown, countUp, Nat.sub_self]
  rfl

theorem afterInverse_eq {s2 k : Nat} (h : k ≤ s2) (x : Block) :
    afterInverse sk finalL s2 x k = decryptStep sk finalL (afterInverse sk finalL s2 x (k + 1)) k := by
  rw [afterInverse, countDown, countUp_append (Nat.le_succ k) h, countUp_self, List.reverse_append,
    List.reverse_singleton, List.foldl_concat]
  rfl

end

/-! ### The linear layer -/

/-- MIX is linear over exclusive or (rule R70). -/
theorem mix_xor (x y : Block) : mix (x.xor y) = (mix x).xor (mix y) := by
  have ht : rotl (x.w0 ^^^ y.w0 ^^^ (x.w1 ^^^ y.w1)) 8 = rotl (x.w0 ^^^ x.w1) 8 ^^^ rotl (y.w0 ^^^ y.w1) 8 := by
    rw [← rotl_xor]
    congr 1
    ac_rfl
  simp only [mix, Block.xor, ht, Block.mk.injEq, true_and]
  exact ⟨by ac_rfl, by ac_rfl⟩

theorem layer_xor (x y : Block) : layer (x.xor y) = (layer x).xor (layer y) :=
  (congrArg swap (mix_xor x y)).trans rfl

/-! ### TRAIL's records -/

theorem recordCount_eq {finalL : Bool} {n : Nat} (h : 1 ≤ n) :
    recordCount finalL n = if n = 8 ∧ finalL = false then 31 else 4 * n := by
  unfold recordCount
  by_cases hlast : n = 8 ∧ finalL = false
  · obtain ⟨rfl, rfl⟩ := hlast
    rfl
  · rw [if_neg hlast, if_pos]
    rw [layerAfter_iff]
    simpa [imp_iff_not_or] using hlast

section
variable (s : State) {m : Nat}

/-- After a round: the two states after the steps before it and the rounds of its step up to it (rule R95). -/
theorem recordAt_difference_of_round (h : m % 4 < 3) :
    (recordAt s m).difference =
      (encryptRounds s.sk (3 * (m / 4) + 1) (3 * (m / 4) + m % 4 + 1)
        ((countUp 1 (m / 4)).foldl (encryptStep s.sk s.finalL) s.x)).xor
      (encryptRounds s.sk (3 * (m / 4) + 1) (3 * (m / 4) + m % 4 + 1)
        ((countUp 1 (m / 4)).foldl (encryptStep s.sk s.finalL) s.y)) := by
  have hstate (x : Block) := stateAfter_eq s.sk s.finalL (m / 4) (j := m % 4 + 1) (by omega) x
  rw [recordAt_difference, show m + 1 = 4 * (m / 4) + (m % 4 + 1) by omega, hstate, hstate]
  rfl

/-- After L: the two states after the whole step (rule R95). -/
theorem recordAt_difference_of_layer (h : m % 4 = 3) :
    (recordAt s m).difference =
      ((countUp 1 (m / 4 + 1)).foldl (encryptStep s.sk s.finalL) s.x).xor
      ((countUp 1 (m / 4 + 1)).foldl (encryptStep s.sk s.finalL) s.y) := by
  rw [recordAt_difference, show m + 1 = 4 * (m / 4 + 1) by omega, stateAfter_steps, stateAfter_steps]

end

end Sys2Proof.Machine
end

section
/-! The obligations of the commands' results (42_key_schedule.md, 43_round_commands.md, 44_step_commands.md,
45_trail.md). -/

namespace Sys2Proof.Proofs

open Sys2Proof.Machine Sys2Proof.Statements

/-- Settles O17: KSCHED is one update of SK, KREG and KSV, with each group from its own register state. -/
theorem kschedFillsTheSchedule : Obligations.KschedFillsTheSchedule :=
  fun s => ⟨_, exec_ksched s, rfl, scheduleOf_get s.key, rfl⟩

/-- Settles O19: ENCR is one update of X, branch by branch. -/
theorem encrAppliesTheRounds : Obligations.EncrAppliesTheRounds := by
  intro s r1 r2 h1 h12 h24 hksv
  have hlegal : legalRounds r1 r2 = true := decide_eq_true ⟨h1, h12, h24⟩
  exact ⟨_, exec_encr hlegal hksv, rfl, branch_encryptRounds s.sk r1 r2 s.x⟩

/-- Settles O20: DECR is one update of X, branch by branch. -/
theorem decrAppliesTheInverseRounds : Obligations.DecrAppliesTheInverseRounds := by
  intro s r1 r2 h1 h12 h24 hksv
  have hlegal : legalRounds r1 r2 = true := decide_eq_true ⟨h1, h12, h24⟩
  exact ⟨_, exec_decr hlegal hksv, rfl, branch_decryptRounds s.sk r1 r2 s.x⟩

/-- Settles O22: the states between the steps are those before step s1, s1 + 1 and so on. -/
theorem encsAppliesTheSteps : Obligations.EncsAppliesTheSteps := by
  intro s s1 s2 h1 h12 h8 hksv
  have hlegal : legalSteps s1 s2 = true := decide_eq_true ⟨h1, h12, h8⟩
  refine ⟨_, exec_encs hlegal hksv, rfl, beforeStep s.sk s.finalL s1 s.x, beforeStep_self _ _ _ _,
    fun k hk _ => ?_, rfl⟩
  rw [beforeStep_succ s.sk s.finalL hk, encryptStep_eq]
  simp only [layerAfter_iff]

/-- Settles O23: the states between the inverse steps are those after the steps down to s2, s2 − 1 and so on. -/
theorem decsAppliesTheInverseSteps : Obligations.DecsAppliesTheInverseSteps := by
  intro s s1 s2 h1 h12 h8 hksv
  have hlegal : legalSteps s1 s2 = true := decide_eq_true ⟨h1, h12, h8⟩
  refine ⟨_, exec_decs hlegal hksv, rfl,
    afterInverse s.sk s.finalL s2 (if s2 = 8 then whiten s.sk s.x else s.x), afterInverse_succ_self _ _ _ _,
    fun k _ hk => ?_, rfl⟩
  rw [afterInverse_eq s.sk s.finalL hk, decryptStep_eq]
  simp only [layerAfter_iff]

/-- Settles O24: the two commands run without an operand and without a key, and L and L_inverse are written out. -/
theorem linearLayerCommands : Obligations.LinearLayerCommands :=
  fun s => ⟨⟨_, exec_lfwd s, rfl, rfl⟩, ⟨_, exec_linv s, rfl, rfl⟩⟩

/-- Settles O25: TRAIL is one update with an explicit buffer; each record below the count is that of its place in its
step. -/
theorem trailCompletes : Obligations.TrailCompletes := by
  intro s n h1 h8 hksv
  have hcount := toNat_ofNat_recordCount s.finalL h8
  refine ⟨_, exec_trail s h1 h8 hksv, rfl, rfl, rfl, hcount.trans (recordCount_eq h1), fun m hm hround => ?_,
    fun m hm hlayer => ?_, fun m hm => ?_⟩
  · obtain ⟨hkind, hr⟩ := recordAt_of_round s m.isLt hround
    rw [State.complete_trail, trailAfter_get_of_lt s (hm.trans_eq hcount)]
    exact ⟨hkind, recordAt_step s m.isLt, hr, rfl, recordAt_difference_of_round s hround⟩
  · obtain ⟨hkind, hr⟩ := recordAt_of_layer s hlayer
    rw [State.complete_trail, trailAfter_get_of_lt s (hm.trans_eq hcount)]
    exact ⟨hkind, recordAt_step s m.isLt, hr, rfl, recordAt_difference_of_layer s hlayer⟩
  · rw [State.complete_trail, trailAfter_get, if_neg]
    exact Nat.not_lt.mpr (hcount.symm.trans_le hm)

/-- Settles O28: a bus transaction is well formed and uses no key, so the instruction is a command, and it fails a
test. -/
theorem unacceptableCommandIsRejected : Obligations.UnacceptableCommandIsRejected := by
  intro i s
  cases hi : i.isCommand with
  | true =>
    obtain ⟨t, ht⟩ := exec_next i s
    rw [ht]
    rcases exec_command_writes hi ht with ⟨hwf, hkey, -⟩ | ⟨hwf, rfl⟩ | ⟨hwf, hk, hksv, rfl⟩
    · exact ⟨fun h => by simp [hwf] at h, fun _ hk h => by simp [hkey hk] at h⟩
    · exact ⟨fun _ => rfl, fun h => by simp [hwf] at h⟩
    · exact ⟨fun h => by simp [hwf] at h, fun _ _ _ => rfl⟩
  | false =>
    cases i with
    | regwr | regrd => exact ⟨fun h => Bool.noConfusion h, fun _ h => Bool.noConfusion h⟩
    | _ => cases hi

/-- Settles O31: the involutions and the linearity are laws of the parts; that L is no involution is one value. -/
theorem layerPartsAreInvolutions : Obligations.LayerPartsAreInvolutions :=
  ⟨fun x => ⟨mix_mix x, swap_swap x⟩, whiten_whiten, layer_xor, by decide⟩

/-- Settles O35: both commands run from every state, and L and L_inverse undo each other. -/
theorem linearCommandsRoundTrip : Obligations.LinearCommandsRoundTrip :=
  fun s => ⟨⟨_, _, exec_lfwd s, exec_linv _, layerInv_layer s.x⟩, ⟨_, _, exec_linv s, exec_lfwd _, layer_layerInv s.x⟩⟩

end Sys2Proof.Proofs
end

section
/-! SUPPORT. Registers without an effect on a command or on a step: FINAL_L before step 8, TRAIL with its count, and
KREG (10_state.md, rules R20, R31; 45_trail.md, rule R97; 70_reset_and_hazards.md, rule R122). -/

namespace Sys2Proof.Machine

open Sys2Proof.Safety Sys2Proof.Statements

/-! ### A command's effect, and a change of the state that goes past it -/

/-- What each command makes of the state before its completion (rules R81 to R95); a bus transaction is no command. -/
def effectOf : Instr → State → State
  | .ksched, s =>
    { s with
      sk := (expandKey s.key s.sk).sk
      kreg := (expandKey s.key s.sk).kreg
      ksv := true
      skWritten := true }
  | .encr r1 r2, s => s.setX (encryptRounds s.sk r1 r2 s.x)
  | .decr r1 r2, s => s.setX (decryptRounds s.sk r1 r2 s.x)
  | .encs s1 s2, s => s.setX (encryptSteps s.sk s.finalL s1 s2 s.x)
  | .decs s1 s2, s => s.setX (decryptSteps s.sk s.finalL s1 s2 s.x)
  | .lfwd, s => s.setX (layer s.x)
  | .linv, s => s.setX (layerInv s.x)
  | .trail n, s =>
    let t := propagate s.sk s.finalL n ⟨s.x, s.y, 0, s.trail⟩
    { s with x := t.x, y := t.y, trail := t.trail, trailCount := BitVec.ofNat 16 t.n }
  | .regwr _ _, s => s
  | .regrd _, s => s

theorem exec_eq_runCommand_effectOf {i : Instr} (hi : i.isCommand = true) (s : State) :
    exec i s = .next (runCommand i.wellFormed i.usesKey s (effectOf i)) := by
  cases i with
  | regwr a v => cases hi
  | regrd a => cases hi
  | ksched | encr | decr | encs | decs | lfwd | linv | trail => rfl

/-- A change g of the state that goes past the engine's tests, a rejection and a completion. -/
structure Unseen (g : State → State) : Prop where
  ksv : ∀ s, (g s).ksv = s.ksv
  reject : ∀ s e, (g s).reject e = g (s.reject e)
  complete : ∀ s, (g s).complete = g s.complete

/-- Where g goes past a command's effect, it goes past the command (rule R35). -/
theorem exec_unseen {g : State → State} (hg : Unseen g) {i : Instr} {s t : State} (hi : i.isCommand = true)
    (heffect : i.wellFormed = true → effectOf i (g s) = g (effectOf i s)) (h : exec i s = .next t) :
    exec i (g s) = .next (g t) := by
  obtain rfl := next_unique h (exec_eq_runCommand_effectOf hi s)
  rw [exec_eq_runCommand_effectOf hi, runCommand, runCommand, hg.ksv]
  split
  case isTrue => rw [hg.reject]
  case isFalse hwf =>
    split
    · rw [hg.reject]
    · rw [heffect (by simpa using hwf), hg.complete]

/-- The state with another FINAL_L. -/
def State.withFinalL (s : State) (f : Bool) : State := { s with finalL := f }

/-- The state with another TRAIL and TRAIL_COUNT. -/
def State.withTrail (s : State) (trail : Vector TrailRecord 32) (count : Word) : State :=
  { s with trail := trail, trailCount := count }

/-- The state with another KREG. -/
def State.withKreg (s : State) (k : KeyWords) : State := { s with kreg := k }

theorem unseen_withFinalL (f : Bool) : Unseen (·.withFinalL f) := ⟨fun _ => rfl, fun _ _ => rfl, fun _ => rfl⟩
theorem unseen_withTrail (trail : Vector TrailRecord 32) (count : Word) : Unseen (·.withTrail trail count) :=
  ⟨fun _ => rfl, fun _ _ => rfl, fun _ => rfl⟩
theorem unseen_withKreg (k : KeyWords) : Unseen (·.withKreg k) := ⟨fun _ => rfl, fun _ _ => rfl, fun _ => rfl⟩

/-! ### FINAL_L -/

section
variable (sk : Vector SubkeyGroup 17) (f f' : Bool)

/-- LAFTER reads FINAL_L for step 8 alone (rule R89). -/
theorem layerAfter_of_le_seven {s2 : Nat} (h : s2 ≤ 7) {s1 s : Nat} (hs : s ∈ countUp s1 s2) :
    layerAfter f s = layerAfter f' s := by
  have hne : s ≠ 8 := by
    have := mem_countUp.mp hs
    omega
  rw [layerAfter_of_ne_eight f hne, layerAfter_of_ne_eight f' hne]

variable {s2 : Nat} (h : s2 ≤ 7)
include h

theorem encryptSteps_of_le_seven (s1 : Nat) (x : Block) : encryptSteps sk f s1 s2 x = encryptSteps sk f' s1 s2 x := by
  have hsteps : (countUp s1 s2).foldl (encryptStep sk f) x = (countUp s1 s2).foldl (encryptStep sk f') x :=
    List.foldl_ext _ _ _ fun x s hs => by rw [encryptStep_eq, encryptStep_eq, layerAfter_of_le_seven f f' h hs]
  rw [encryptSteps, hsteps]
  rfl

theorem decryptSteps_of_le_seven (s1 : Nat) (x : Block) : decryptSteps sk f s1 s2 x = decryptSteps sk f' s1 s2 x :=
  List.foldl_ext _ _ _ fun x s hs => by
    rw [decryptStep_eq, decryptStep_eq, layerAfter_of_le_seven f f' h (List.mem_reverse.mp hs)]

theorem propagate_of_le_seven (t : TrailRun) : propagate sk f s2 t = propagate sk f' s2 t := by
  have hsteps : (countUp 1 s2).foldl (TrailRun.step sk f) t = (countUp 1 s2).foldl (TrailRun.step sk f') t :=
    List.foldl_ext _ _ _ fun t s hs => by rw [TrailRun.step, TrailRun.step, layerAfter_of_le_seven f f' h hs]
  rw [propagate, hsteps]
  rfl

end

/-- A command that does not end at step 8 has the same effect under either FINAL_L (rule R122). -/
theorem effectOf_withFinalL {i : Instr} (s : State) (f : Bool) (hwf : i.wellFormed = true)
    (hencs : ∀ s1, i ≠ .encs s1 8) (hdecs : ∀ s1, i ≠ .decs s1 8) (htrail : i ≠ .trail 8) :
    effectOf i (s.withFinalL f) = (effectOf i s).withFinalL f := by
  cases i with
  | ksched | encr | decr | lfwd | linv | regwr | regrd => rfl
  | encs s1 s2 =>
    have hne : s2 ≠ 8 := fun h => hencs s1 (h ▸ rfl)
    obtain ⟨-, -, h8⟩ := of_decide_eq_true hwf
    have hx := encryptSteps_of_le_seven s.sk f s.finalL (s2 := s2) (by omega) s1 s.x
    exact congrArg (fun x => (s.setX x).withFinalL f) hx
  | decs s1 s2 =>
    have hne : s2 ≠ 8 := fun h => hdecs s1 (h ▸ rfl)
    obtain ⟨-, -, h8⟩ := of_decide_eq_true hwf
    have hx := decryptSteps_of_le_seven s.sk f s.finalL (s2 := s2) (by omega) s1 s.x
    exact congrArg (fun x => (s.setX x).withFinalL f) hx
  | trail n =>
    have hne : n ≠ 8 := fun h => htrail (h ▸ rfl)
    obtain ⟨-, h8⟩ := of_decide_eq_true hwf
    have hrun := propagate_of_le_seven s.sk f s.finalL (s2 := n) (by omega) ⟨s.x, s.y, 0, s.trail⟩
    simp only [effectOf, State.withFinalL, hrun]

/-! ### TRAIL and TRAIL_COUNT -/

/-- No command but TRAIL has to do with TRAIL and TRAIL_COUNT (rule R97). -/
theorem effectOf_withTrail {i : Instr} (s : State) (trail : Vector TrailRecord 32) (count : Word)
    (htrail : ¬ ∃ n, i = .trail n) :
    effectOf i (s.withTrail trail count) = (effectOf i s).withTrail trail count := by
  cases i with
  | trail n => exact absurd ⟨n, rfl⟩ htrail
  | _ => rfl

/-- The records a TRAIL makes do not depend on the buffer they are written to (rule R97). -/
theorem trailAfter_withTrail (s : State) (trail : Vector TrailRecord 32) (count : Word) (c : Nat) (m : Fin 32) :
    (trailAfter (s.withTrail trail count) c)[m] = if m.val < c then (trailAfter s c)[m] else trail[m] := by
  rw [trailAfter_get, trailAfter_get]
  split
  · rfl
  · rfl

theorem exec_trail_withTrail (s : State) (trail : Vector TrailRecord 32) (count : Word) {n : Nat} (h1 : 1 ≤ n)
    (h8 : n ≤ 8) (hksv : s.ksv = true) :
    exec (.trail n) (s.withTrail trail count) = .next
      ({ s with
          x := encryptSteps s.sk s.finalL 1 n s.x
          y := encryptSteps s.sk s.finalL 1 n s.y
          trail := trailAfter (s.withTrail trail count) (recordCount s.finalL n)
          trailCount := BitVec.ofNat 16 (recordCount s.finalL n) } : State).complete :=
  exec_trail (s.withTrail trail count) h1 h8 hksv

/-! ### KREG -/

theorem writeCmd_withKreg (s : State) (k : KeyWords) (v : Word) :
    (s.withKreg k).writeCmd v = (s.writeCmd v).withKreg k := by
  rcases writeCmd_cases s v with ⟨hc, h⟩ | ⟨hc, h⟩
  · rw [h, writeCmd_accepted (s := s.withKreg k) hc]
    rfl
  · obtain ⟨-, h'⟩ := (writeCmd_cases (s.withKreg k) v).resolve_left fun ⟨hc', _⟩ => hc hc'
    rw [h, h']
    rfl

theorem regWrite_withKreg (s : State) (k : KeyWords) (a : Addr) (v : Word) :
    (s.withKreg k).regWrite a v = (s.regWrite a v).withKreg k := by
  have busy : (s.withKreg k).busy = s.busy := rfl
  unfold State.regWrite
  cases registerAt a <;> dsimp only
  case status => rw [State.writeStatus_eq, State.writeStatus_eq]; rfl
  case cmd =>
    rw [busy, apply_ite (State.withKreg · k), writeCmd_withKreg]
    rfl
  case key | x | y | ctrl =>
    rw [busy, apply_ite (State.withKreg · k)]
    rfl

theorem returnValue_withKreg (s : State) (k : KeyWords) (r : ReadValue) :
    (s.withKreg k).returnValue r = (s.returnValue r).withKreg k := by
  cases r <;> rfl

theorem regRead_withKreg (s : State) (k : KeyWords) (a : Addr) : (s.withKreg k).regRead a = s.regRead a := rfl

theorem settlePoll_withKreg (s : State) (k : KeyWords) (poll : Option (Word × Word)) :
    (s.withKreg k).settlePoll poll = (s.settlePoll poll).withKreg k := by
  cases poll with
  | none => rfl
  | some p => exact (apply_ite (State.withKreg · k) (s.rdata &&& p.1 = p.2) s.popProgram s).symm

/-- KSCHED aside, no effect has to do with KREG (rule R20). -/
theorem effectOf_withKreg {i : Instr} (s : State) (k : KeyWords) (hksched : i ≠ .ksched) :
    effectOf i (s.withKreg k) = (effectOf i s).withKreg k := by
  cases i with
  | ksched => exact absurd rfl hksched
  | _ => rfl

/-- Every instruction goes past a change of KREG, or, as KSCHED does, leaves no trace of it (rules R20, R81). -/
theorem exec_withKreg {i : Instr} {s t : State} (k : KeyWords) (h : exec i s = .next t) :
    ∃ k', exec i (s.withKreg k) = .next (t.withKreg k') := by
  cases i with
  | regwr a v =>
    obtain rfl := next_unique h rfl
    exact ⟨k, congrArg _ (regWrite_withKreg s k a v)⟩
  | regrd a =>
    obtain rfl := next_unique h rfl
    exact ⟨k, by rw [exec_regrd, regRead_withKreg, returnValue_withKreg]⟩
  | ksched =>
    obtain rfl := next_unique h (exec_ksched s)
    exact ⟨kregBefore s.key 17, exec_ksched _⟩
  | encr | decr | encs | decs | lfwd | linv | trail =>
    exact ⟨k, exec_unseen (unseen_withKreg k) rfl (fun _ => effectOf_withKreg s k Instr.noConfusion) h⟩

/-- KREG plays no part in who moves, what is fetched, or what the move does to anything else (rule R20). -/
theorem step_withKreg {s t : State} (k : KeyWords) (h : step s = .next t) :
    ∃ k', step (s.withKreg k) = .next (t.withKreg k') := by
  rcases step_cases s with ⟨hm, hs⟩ | ⟨hm, hp, hs⟩ | ⟨hm, hp, hs⟩ | ⟨w, i, hm, hp, hd, hs⟩ | ⟨w, -, -, -, hs⟩ |
    ⟨op, rest, hm, hp, hs⟩ | ⟨a, mask, value, rest, hm, hp, hs⟩
  case inr.inr.inr.inr.inl => cases hs.symm.trans h
  case inr.inr.inr.inl =>
    rw [step_of_engineRuns (s := s.withKreg k) ⟨hm, w, hp, hd⟩]
    exact exec_withKreg (s := s.takeTurn) k (hs.symm.trans h)
  case inr.inr.inr.inr.inr.inl =>
    rw [step_of_bus (s := s.withKreg k) hm hp]
    exact exec_withKreg (s := { s.takeTurn with program := rest }) k (hs.symm.trans h)
  all_goals obtain rfl := next_unique h hs
  case inl => exact ⟨State.reset.kreg, step_of_reset (s := s.withKreg k) hm⟩
  case inr.inl => exact ⟨k, Proofs.idleAgentsChangeNothing (s.withKreg k) (.inl ⟨hm, hp⟩)⟩
  case inr.inr.inl => exact ⟨k, Proofs.idleAgentsChangeNothing (s.withKreg k) (.inr ⟨hm, hp⟩)⟩
  case inr.inr.inr.inr.inr.inr =>
    refine ⟨k, (step_of_poll (s := s.withKreg k) hm hp).trans (congrArg _ ?_)⟩
    rw [← settlePoll_withKreg, ← returnValue_withKreg, ← regRead_withKreg]
    rfl

end Sys2Proof.Machine
end

section
/-! The obligations of noninterference (10_state.md, rule R20; 45_trail.md, rule R97; 70_reset_and_hazards.md, rule
R122). -/

namespace Sys2Proof.Proofs

open Sys2Proof.Machine Sys2Proof.Statements

/-- Settles O37: the commands named aside, FINAL_L is read for step 8 alone, and no other command gets there. -/
theorem finalLMattersOnlyAtStepEight : Obligations.FinalLMattersOnlyAtStepEight :=
  fun _ s _ f hi hencs hdecs htrail h =>
    exec_unseen (unseen_withFinalL f) hi (fun hwf => effectOf_withFinalL s f hwf hencs hdecs htrail) h

/-- Settles O38: an accepted TRAIL makes its records from the other registers and writes those below the count; every
other command, and a rejection, leaves TRAIL and its count. -/
theorem noCommandReadsTheTrail : Obligations.NoCommandReadsTheTrail := by
  intro i s t trail count hi h
  by_cases htrail : ∃ n, i = .trail n
  · have rejects := unacceptableCommandIsRejected i (s.withTrail trail count)
    rcases exec_command_writes hi h with ⟨hwf, hkey, -⟩ | ⟨hwf, rfl⟩ | ⟨hwf, hk, hksv, rfl⟩
    · obtain ⟨n, rfl⟩ := htrail
      obtain ⟨h1, h8⟩ := of_decide_eq_true hwf
      have hksv := hkey rfl
      have hcount := toNat_ofNat_recordCount s.finalL h8
      obtain rfl := next_unique h (exec_trail s h1 h8 hksv)
      refine ⟨_, exec_trail_withTrail s trail count h1 h8 hksv, rfl, fun hrej => ?_, fun _ _ _ => ⟨?_, fun m => ?_⟩⟩
      · rcases hrej ⟨n, rfl⟩ with hno | hno
        · cases hwf.symm.trans hno
        · cases hksv.symm.trans hno
      · simp only [State.complete_trailCount]
      · simp only [State.complete_trail, State.complete_trailCount, hcount]
        exact trailAfter_withTrail s trail count _ m
    · exact ⟨(s.reject .range).withTrail trail count, rejects.1 hwf, rfl, fun _ => ⟨rfl, rfl⟩,
        fun _ hwf' => Bool.noConfusion (hwf.symm.trans hwf')⟩
    · exact ⟨(s.reject .nokey).withTrail trail count, rejects.2 hwf hk hksv, rfl,
        fun _ => ⟨rfl, rfl⟩, fun _ _ hksv' => Bool.noConfusion (hksv.symm.trans hksv')⟩
  · exact ⟨t.withTrail trail count,
      exec_unseen (unseen_withTrail trail count) hi (fun _ => effectOf_withTrail s trail count htrail) h, rfl,
      fun _ => ⟨rfl, rfl⟩, fun h => absurd h htrail⟩

/-- Settles O39, from the step that goes past a change of KREG. -/
theorem nothingReadsKreg : Obligations.NothingReadsKreg := by
  intro s t k h
  obtain ⟨k', hk'⟩ := step_withKreg k h
  exact ⟨_, hk', rfl⟩

end Sys2Proof.Proofs
end
